-- ==== Sys2Proof/Word.lean ====
section
/-! DEFINITION. The words of the machine (00_scope.md rule R10): a word is 32 bits, a byte 8, a register index 5
(30_encoding.md rule R91). Bit-field and byte-order helpers stand in Machine/Bytes.lean. -/

namespace Sys2Proof

/-- A machine word: a register, the pc, an address, an instruction word (R9: XLEN = 32, ILEN = 32). -/
abbrev Word := BitVec 32

/-- One byte of memory (R10). -/
abbrev Byte := BitVec 8

/-- A register field: an unsigned number 0..31 naming `x0` .. `x31` (R91); all 32 values are legal (R23). -/
abbrev RegIdx := BitVec 5

end Sys2Proof
end

