-- ==== Sys2Proof/Machine/Bytes.lean ====
section
/-! DEFINITION. Bit fields, extension and byte order: 00_scope.md rules R10 and R12, 20_memory.md rule R51. -/

namespace Sys2Proof.Machine

/-- Byte `k` of a word: bits `8k+7 : 8k` (R51). -/
def byteOf (v : Word) (k : Nat) : Byte := v.extractLsb' (8 * k) 8

/-- The `n` low bytes of a word, least significant first: the order in which they lie in memory (R51, R54). -/
def bytesOf (v : Word) (n : Nat) : List Byte := (List.range n).map (byteOf v)

/-- The value of bytes listed in increasing address order, little-endian (R51), read as a word. -/
def wordOf : List Byte → Word
  | []      => 0
  | b :: bs => b.setWidth 32 ||| (wordOf bs <<< 8)

/-- `sext_8` of the low byte of `v` (R12). -/
def sext8 (v : Word) : Word := (v.setWidth 8).signExtend 32

/-- `sext_16` of the low halfword of `v` (R12). -/
def sext16 (v : Word) : Word := (v.setWidth 16).signExtend 32

/-- `zext_8` of the low byte of `v` (R12). -/
def zext8 (v : Word) : Word := (v.setWidth 8).setWidth 32

/-- `zext_16` of the low halfword of `v` (R12). -/
def zext16 (v : Word) : Word := (v.setWidth 16).setWidth 32

/-- Sign extension of an immediate field to 32 bits (R12, R98 to R102). -/
def sextImm {n : Nat} (imm : BitVec n) : Word := imm.signExtend 32

/-- The `n` bytes of a byte array read from place `a` on, in increasing order. -/
def readBytes (f : Nat → Byte) (a n : Nat) : List Byte := (List.range n).map (fun k => f (a + k))

/-- Byte `i` of a device's byte array. -/
def byteAt (bs : List Byte) (i : Nat) : Byte := bs.getD i 0

/-- Lays the bytes `vs` into the byte array `bs` from place `i` on; the array keeps its length. -/
def layBytes (bs : List Byte) (i : Nat) : List Byte → List Byte
  | []      => bs
  | v :: vs => layBytes (bs.set i v) (i + 1) vs

end Sys2Proof.Machine
end

