-- ==== Sys2Proof/Syntax.lean ====
section
/-! DEFINITION. The instructions: one constructor for each of the 37 rows of spec/opcode_table.json (00_scope.md rule R4,
30_encoding.md rule R105), with the operands of its format (rules R92 to R97), and the reporting classes of the words
that are no instruction (47_system_and_unsupported.md rule R238). -/

namespace Sys2Proof

/-- The 37 supported instructions (R4). An immediate is held at the width its format gives it: 12 bits (I and S), 13 bits
with bit 0 (B, R100), 21 bits with bit 0 (J, R102), the 20 bits `inst[31:12]` (U, R101), a 5-bit `shamt` (R103). -/
inductive Instr where
  -- register-register (40_register_register.md)
  | add   (rd rs1 rs2 : RegIdx)
  | sub   (rd rs1 rs2 : RegIdx)
  | sll   (rd rs1 rs2 : RegIdx)
  | slt   (rd rs1 rs2 : RegIdx)
  | sltu  (rd rs1 rs2 : RegIdx)
  | xor   (rd rs1 rs2 : RegIdx)
  | srl   (rd rs1 rs2 : RegIdx)
  | sra   (rd rs1 rs2 : RegIdx)
  | or    (rd rs1 rs2 : RegIdx)
  | and   (rd rs1 rs2 : RegIdx)
  -- register-immediate (41_register_immediate.md)
  | addi  (rd rs1 : RegIdx) (imm : BitVec 12)
  | slti  (rd rs1 : RegIdx) (imm : BitVec 12)
  | sltiu (rd rs1 : RegIdx) (imm : BitVec 12)
  | xori  (rd rs1 : RegIdx) (imm : BitVec 12)
  | ori   (rd rs1 : RegIdx) (imm : BitVec 12)
  | andi  (rd rs1 : RegIdx) (imm : BitVec 12)
  | slli  (rd rs1 : RegIdx) (shamt : BitVec 5)
  | srli  (rd rs1 : RegIdx) (shamt : BitVec 5)
  | srai  (rd rs1 : RegIdx) (shamt : BitVec 5)
  -- loads (42_loads.md)
  | lb    (rd rs1 : RegIdx) (imm : BitVec 12)
  | lh    (rd rs1 : RegIdx) (imm : BitVec 12)
  | lw    (rd rs1 : RegIdx) (imm : BitVec 12)
  | lbu   (rd rs1 : RegIdx) (imm : BitVec 12)
  | lhu   (rd rs1 : RegIdx) (imm : BitVec 12)
  -- stores (43_stores.md)
  | sb    (rs1 rs2 : RegIdx) (imm : BitVec 12)
  | sh    (rs1 rs2 : RegIdx) (imm : BitVec 12)
  | sw    (rs1 rs2 : RegIdx) (imm : BitVec 12)
  -- conditional branches (44_branches.md)
  | beq   (rs1 rs2 : RegIdx) (off : BitVec 13)
  | bne   (rs1 rs2 : RegIdx) (off : BitVec 13)
  | blt   (rs1 rs2 : RegIdx) (off : BitVec 13)
  | bge   (rs1 rs2 : RegIdx) (off : BitVec 13)
  | bltu  (rs1 rs2 : RegIdx) (off : BitVec 13)
  | bgeu  (rs1 rs2 : RegIdx) (off : BitVec 13)
  -- jumps (45_jumps.md)
  | jal   (rd : RegIdx) (off : BitVec 21)
  | jalr  (rd rs1 : RegIdx) (imm : BitVec 12)
  -- upper immediate (46_upper_immediate.md)
  | lui   (rd : RegIdx) (imm20 : BitVec 20)
  | auipc (rd : RegIdx) (imm20 : BitVec 20)
  deriving DecidableEq, Repr

/-- The instruction's mnemonic as spec/opcode_table.json spells it. -/
def Instr.mnemonic : Instr → String
  | .add _ _ _   => "ADD"
  | .sub _ _ _   => "SUB"
  | .sll _ _ _   => "SLL"
  | .slt _ _ _   => "SLT"
  | .sltu _ _ _  => "SLTU"
  | .xor _ _ _   => "XOR"
  | .srl _ _ _   => "SRL"
  | .sra _ _ _   => "SRA"
  | .or _ _ _    => "OR"
  | .and _ _ _   => "AND"
  | .addi _ _ _  => "ADDI"
  | .slti _ _ _  => "SLTI"
  | .sltiu _ _ _ => "SLTIU"
  | .xori _ _ _  => "XORI"
  | .ori _ _ _   => "ORI"
  | .andi _ _ _  => "ANDI"
  | .slli _ _ _  => "SLLI"
  | .srli _ _ _  => "SRLI"
  | .srai _ _ _  => "SRAI"
  | .lb _ _ _    => "LB"
  | .lh _ _ _    => "LH"
  | .lw _ _ _    => "LW"
  | .lbu _ _ _   => "LBU"
  | .lhu _ _ _   => "LHU"
  | .sb _ _ _    => "SB"
  | .sh _ _ _    => "SH"
  | .sw _ _ _    => "SW"
  | .beq _ _ _   => "BEQ"
  | .bne _ _ _   => "BNE"
  | .blt _ _ _   => "BLT"
  | .bge _ _ _   => "BGE"
  | .bltu _ _ _  => "BLTU"
  | .bgeu _ _ _  => "BGEU"
  | .jal _ _     => "JAL"
  | .jalr _ _ _  => "JALR"
  | .lui _ _     => "LUI"
  | .auipc _ _   => "AUIPC"

/-- The reporting class of a word that is no supported instruction (R107, R238): the source's "explicit, separately
faulting 'not yet supported' instruction class". It never changes what the Hart does. -/
inductive ExtClass where
  /-- Multiply and divide (R232). -/
  | m
  /-- Atomics (R234). -/
  | a
  /-- Floating point (R235). -/
  | fd
  /-- Compressed: `inst[1:0]` is not `11` (R236). -/
  | c
  /-- The SYSTEM opcode (R231). -/
  | zicsrSystem
  /-- The MISC-MEM opcode (R230). -/
  | fence
  /-- Everything else (R233, R237). -/
  | unknown
  deriving DecidableEq, Repr

/-- Why the decoder refuses: the bytes do not make up one 32-bit word (R90: every instruction takes 4 bytes), or the
word is no supported instruction (R106), named by its class. -/
inductive Reject where
  | truncated
  | illegal (class_ : ExtClass)
  deriving DecidableEq, Repr

end Sys2Proof
end

