-- ==== Sys2Proof/WellFormed.lean ====
section
/-! DEFINITION. Which terms of `Instr` an encoding exists for. Only the offsets of branches and of JAL can be ill-formed:
bit 0 of `imm_B` and of `imm_J` is not stored and is 0 (30_encoding.md rules R95, R97, R100, R102). Every other field
admits every value of its width (R23, R91, R98, R99, R101, R103). -/

namespace Sys2Proof

/-- The offset is a multiple of 2, so that the format can hold it (R100, R102). -/
abbrev evenOffset {n : Nat} (off : BitVec n) : Bool := !off.getLsbD 0

/-- The check of each instruction's fields, one line each. -/
def Instr.wellFormed : Instr → Bool
  | .add _ _ _   => true
  | .sub _ _ _   => true
  | .sll _ _ _   => true
  | .slt _ _ _   => true
  | .sltu _ _ _  => true
  | .xor _ _ _   => true
  | .srl _ _ _   => true
  | .sra _ _ _   => true
  | .or _ _ _    => true
  | .and _ _ _   => true
  | .addi _ _ _  => true
  | .slti _ _ _  => true
  | .sltiu _ _ _ => true
  | .xori _ _ _  => true
  | .ori _ _ _   => true
  | .andi _ _ _  => true
  | .slli _ _ _  => true
  | .srli _ _ _  => true
  | .srai _ _ _  => true
  | .lb _ _ _    => true
  | .lh _ _ _    => true
  | .lw _ _ _    => true
  | .lbu _ _ _   => true
  | .lhu _ _ _   => true
  | .sb _ _ _    => true
  | .sh _ _ _    => true
  | .sw _ _ _    => true
  | .beq _ _ off  => evenOffset off
  | .bne _ _ off  => evenOffset off
  | .blt _ _ off  => evenOffset off
  | .bge _ _ off  => evenOffset off
  | .bltu _ _ off => evenOffset off
  | .bgeu _ _ off => evenOffset off
  | .jal _ off    => evenOffset off
  | .jalr _ _ _  => true
  | .lui _ _     => true
  | .auipc _ _   => true

/-- The instruction has an encoding. -/
abbrev Instr.WellFormed (i : Instr) : Prop := i.wellFormed = true

end Sys2Proof
end

