-- ==== Sys2Proof/Decode.lean ====
section
/-! DEFINITION. From words to instructions and back (30_encoding.md): the fields (R91), the immediates (R98 to R103), the
decoder (R104), the class of a refused word (47_system_and_unsupported.md R238), the encoder (R92 to R97, R105), and the
opcode map with its match and mask (R105). -/

namespace Sys2Proof

/-! ## Fields (R91) -/

/-- `inst[6:0]` -/
def opcodeOf (inst : Word) : BitVec 7 := inst.extractLsb' 0 7
/-- `inst[11:7]` -/
def rdOf (inst : Word) : RegIdx := inst.extractLsb' 7 5
/-- `inst[14:12]` -/
def funct3Of (inst : Word) : BitVec 3 := inst.extractLsb' 12 3
/-- `inst[19:15]` -/
def rs1Of (inst : Word) : RegIdx := inst.extractLsb' 15 5
/-- `inst[24:20]` -/
def rs2Of (inst : Word) : RegIdx := inst.extractLsb' 20 5
/-- `inst[31:25]` -/
def funct7Of (inst : Word) : BitVec 7 := inst.extractLsb' 25 7

/-! ## Immediates, at their own width; the meanings sign-extend them -/

/-- `inst[31:20]` (R98) -/
def immI (inst : Word) : BitVec 12 := inst.extractLsb' 20 12
/-- `inst[31:25] ++ inst[11:7]` (R99) -/
def immS (inst : Word) : BitVec 12 := inst.extractLsb' 25 7 ++ inst.extractLsb' 7 5
/-- `inst[31] ++ inst[7] ++ inst[30:25] ++ inst[11:8] ++ 0b0` (R100) -/
def immB (inst : Word) : BitVec 13 :=
  inst.extractLsb' 31 1 ++ inst.extractLsb' 7 1 ++ inst.extractLsb' 25 6 ++ inst.extractLsb' 8 4 ++ 0#1
/-- `inst[31:12]` (R101) -/
def immU (inst : Word) : BitVec 20 := inst.extractLsb' 12 20
/-- `inst[31] ++ inst[19:12] ++ inst[20] ++ inst[30:21] ++ 0b0` (R102) -/
def immJ (inst : Word) : BitVec 21 :=
  inst.extractLsb' 31 1 ++ inst.extractLsb' 12 8 ++ inst.extractLsb' 20 1 ++ inst.extractLsb' 21 10 ++ 0#1
/-- `inst[24:20]` as a shift amount (R103) -/
def shamtOf (inst : Word) : BitVec 5 := inst.extractLsb' 20 5

/-! ## The decoder (R104) -/

/-- Opcode `0110011`: the ten register-register instructions (R104, R141). -/
def decodeOp (inst : Word) : Option Instr :=
  match funct7Of inst, funct3Of inst with
  | 0b0000000#7, 0b000#3 => some (.add  (rdOf inst) (rs1Of inst) (rs2Of inst))
  | 0b0100000#7, 0b000#3 => some (.sub  (rdOf inst) (rs1Of inst) (rs2Of inst))
  | 0b0000000#7, 0b001#3 => some (.sll  (rdOf inst) (rs1Of inst) (rs2Of inst))
  | 0b0000000#7, 0b010#3 => some (.slt  (rdOf inst) (rs1Of inst) (rs2Of inst))
  | 0b0000000#7, 0b011#3 => some (.sltu (rdOf inst) (rs1Of inst) (rs2Of inst))
  | 0b0000000#7, 0b100#3 => some (.xor  (rdOf inst) (rs1Of inst) (rs2Of inst))
  | 0b0000000#7, 0b101#3 => some (.srl  (rdOf inst) (rs1Of inst) (rs2Of inst))
  | 0b0100000#7, 0b101#3 => some (.sra  (rdOf inst) (rs1Of inst) (rs2Of inst))
  | 0b0000000#7, 0b110#3 => some (.or   (rdOf inst) (rs1Of inst) (rs2Of inst))
  | 0b0000000#7, 0b111#3 => some (.and  (rdOf inst) (rs1Of inst) (rs2Of inst))
  | _, _ => none

/-- Opcode `0010011`: the nine register-immediate instructions (R104, R160). -/
def decodeOpImm (inst : Word) : Option Instr :=
  match funct3Of inst with
  | 0b000#3 => some (.addi  (rdOf inst) (rs1Of inst) (immI inst))
  | 0b010#3 => some (.slti  (rdOf inst) (rs1Of inst) (immI inst))
  | 0b011#3 => some (.sltiu (rdOf inst) (rs1Of inst) (immI inst))
  | 0b100#3 => some (.xori  (rdOf inst) (rs1Of inst) (immI inst))
  | 0b110#3 => some (.ori   (rdOf inst) (rs1Of inst) (immI inst))
  | 0b111#3 => some (.andi  (rdOf inst) (rs1Of inst) (immI inst))
  | 0b001#3 =>
    if funct7Of inst = 0b0000000#7 then some (.slli (rdOf inst) (rs1Of inst) (shamtOf inst)) else none
  | 0b101#3 =>
    if funct7Of inst = 0b0000000#7 then some (.srli (rdOf inst) (rs1Of inst) (shamtOf inst))
    else if funct7Of inst = 0b0100000#7 then some (.srai (rdOf inst) (rs1Of inst) (shamtOf inst))
    else none
  | _ => none

/-- Opcode `0000011`: the five loads (R104, R176). -/
def decodeLoad (inst : Word) : Option Instr :=
  match funct3Of inst with
  | 0b000#3 => some (.lb  (rdOf inst) (rs1Of inst) (immI inst))
  | 0b001#3 => some (.lh  (rdOf inst) (rs1Of inst) (immI inst))
  | 0b010#3 => some (.lw  (rdOf inst) (rs1Of inst) (immI inst))
  | 0b100#3 => some (.lbu (rdOf inst) (rs1Of inst) (immI inst))
  | 0b101#3 => some (.lhu (rdOf inst) (rs1Of inst) (immI inst))
  | _ => none

/-- Opcode `0100011`: the three stores (R104, R189). -/
def decodeStore (inst : Word) : Option Instr :=
  match funct3Of inst with
  | 0b000#3 => some (.sb (rs1Of inst) (rs2Of inst) (immS inst))
  | 0b001#3 => some (.sh (rs1Of inst) (rs2Of inst) (immS inst))
  | 0b010#3 => some (.sw (rs1Of inst) (rs2Of inst) (immS inst))
  | _ => none

/-- Opcode `1100011`: the six branches (R104, R204). -/
def decodeBranch (inst : Word) : Option Instr :=
  match funct3Of inst with
  | 0b000#3 => some (.beq  (rs1Of inst) (rs2Of inst) (immB inst))
  | 0b001#3 => some (.bne  (rs1Of inst) (rs2Of inst) (immB inst))
  | 0b100#3 => some (.blt  (rs1Of inst) (rs2Of inst) (immB inst))
  | 0b101#3 => some (.bge  (rs1Of inst) (rs2Of inst) (immB inst))
  | 0b110#3 => some (.bltu (rs1Of inst) (rs2Of inst) (immB inst))
  | 0b111#3 => some (.bgeu (rs1Of inst) (rs2Of inst) (immB inst))
  | _ => none

/-- The case table of rule R104: the instruction a word is, if any. -/
def decodeWord (inst : Word) : Option Instr :=
  match opcodeOf inst with
  | 0b0110111#7 => some (.lui (rdOf inst) (immU inst))
  | 0b0010111#7 => some (.auipc (rdOf inst) (immU inst))
  | 0b1101111#7 => some (.jal (rdOf inst) (immJ inst))
  | 0b1100111#7 =>
    if funct3Of inst = 0b000#3 then some (.jalr (rdOf inst) (rs1Of inst) (immI inst)) else none
  | 0b1100011#7 => decodeBranch inst
  | 0b0000011#7 => decodeLoad inst
  | 0b0100011#7 => decodeStore inst
  | 0b0010011#7 => decodeOpImm inst
  | 0b0110011#7 => decodeOp inst
  | _ => none

/-- `ExtClass(inst)` (R238): the reporting class of a word the decoder refuses. -/
def extClass (inst : Word) : ExtClass :=
  if inst.extractLsb' 0 2 ≠ 0b11#2 then .c
  else
    match opcodeOf inst with
    | 0b0110011#7 => if funct7Of inst = 0b0000001#7 then .m else .unknown
    | 0b0101111#7 => .a
    | 0b0000111#7 => .fd
    | 0b0100111#7 => .fd
    | 0b1000011#7 => .fd
    | 0b1000111#7 => .fd
    | 0b1001011#7 => .fd
    | 0b1001111#7 => .fd
    | 0b1010011#7 => .fd
    | 0b1110011#7 => .zicsrSystem
    | 0b0001111#7 => .fence
    | _ => .unknown

/-- `Decode(inst)` (R104): total on all words; a word that is no supported instruction is refused by the name of its class
(R107). -/
def decode (inst : Word) : Except Reject Instr :=
  match decodeWord inst with
  | some i => .ok i
  | none   => .error (.illegal (extClass inst))

/-- The decoder on bytes in increasing address order: the first four are one little-endian word (R90), the rest is
handed back. -/
def decodeBytes : List Byte → Except Reject (Instr × List Byte)
  | b0 :: b1 :: b2 :: b3 :: rest =>
    match decode (Machine.wordOf [b0, b1, b2, b3]) with
    | .ok i    => .ok (i, rest)
    | .error r => .error r
  | _ => .error .truncated

/-- The instruction word that opcode_table.json numbers `w` on `nbits` bits: the bits from `nbits` on are 0. -/
def tableWord (nbits w : Nat) : Word := BitVec.ofNat 32 (w % 2 ^ nbits)

/-- The instruction the decoder reads from the bytes of a table word, laid out as the hardware stores them (R90). -/
def decodeTableWord (nbits w : Nat) : Option Instr :=
  match decodeBytes (Machine.bytesOf (tableWord nbits w) 4) with
  | .ok (i, _) => some i
  | .error _   => none

/-! ## The encoder (R92 to R97, with the fixed bits of R105) -/

/-- R format (R92). -/
def encodeR (funct7 : BitVec 7) (rs2 rs1 : RegIdx) (funct3 : BitVec 3) (rd : RegIdx) (opcode : BitVec 7) : Word :=
  funct7 ++ rs2 ++ rs1 ++ funct3 ++ rd ++ opcode

/-- I format (R93). -/
def encodeI (imm : BitVec 12) (rs1 : RegIdx) (funct3 : BitVec 3) (rd : RegIdx) (opcode : BitVec 7) : Word :=
  imm ++ rs1 ++ funct3 ++ rd ++ opcode

/-- S format (R94). -/
def encodeS (imm : BitVec 12) (rs2 rs1 : RegIdx) (funct3 : BitVec 3) (opcode : BitVec 7) : Word :=
  imm.extractLsb' 5 7 ++ rs2 ++ rs1 ++ funct3 ++ imm.extractLsb' 0 5 ++ opcode

/-- B format (R95); bit 0 of the offset is not stored. -/
def encodeB (off : BitVec 13) (rs2 rs1 : RegIdx) (funct3 : BitVec 3) (opcode : BitVec 7) : Word :=
  off.extractLsb' 12 1 ++ off.extractLsb' 5 6 ++ rs2 ++ rs1 ++ funct3 ++ off.extractLsb' 1 4 ++ off.extractLsb' 11 1
    ++ opcode

/-- U format (R96). -/
def encodeU (imm20 : BitVec 20) (rd : RegIdx) (opcode : BitVec 7) : Word := imm20 ++ rd ++ opcode

/-- J format (R97); bit 0 of the offset is not stored. -/
def encodeJ (off : BitVec 21) (rd : RegIdx) (opcode : BitVec 7) : Word :=
  off.extractLsb' 20 1 ++ off.extractLsb' 1 10 ++ off.extractLsb' 11 1 ++ off.extractLsb' 12 8 ++ rd ++ opcode

/-- The word of an instruction (R105). An ill-formed offset (bit 0 set) has no encoding; its bit 0 is dropped. -/
def encode : Instr → Word
  | .add rd rs1 rs2   => encodeR 0b0000000 rs2 rs1 0b000 rd 0b0110011
  | .sub rd rs1 rs2   => encodeR 0b0100000 rs2 rs1 0b000 rd 0b0110011
  | .sll rd rs1 rs2   => encodeR 0b0000000 rs2 rs1 0b001 rd 0b0110011
  | .slt rd rs1 rs2   => encodeR 0b0000000 rs2 rs1 0b010 rd 0b0110011
  | .sltu rd rs1 rs2  => encodeR 0b0000000 rs2 rs1 0b011 rd 0b0110011
  | .xor rd rs1 rs2   => encodeR 0b0000000 rs2 rs1 0b100 rd 0b0110011
  | .srl rd rs1 rs2   => encodeR 0b0000000 rs2 rs1 0b101 rd 0b0110011
  | .sra rd rs1 rs2   => encodeR 0b0100000 rs2 rs1 0b101 rd 0b0110011
  | .or rd rs1 rs2    => encodeR 0b0000000 rs2 rs1 0b110 rd 0b0110011
  | .and rd rs1 rs2   => encodeR 0b0000000 rs2 rs1 0b111 rd 0b0110011
  | .addi rd rs1 imm  => encodeI imm rs1 0b000 rd 0b0010011
  | .slti rd rs1 imm  => encodeI imm rs1 0b010 rd 0b0010011
  | .sltiu rd rs1 imm => encodeI imm rs1 0b011 rd 0b0010011
  | .xori rd rs1 imm  => encodeI imm rs1 0b100 rd 0b0010011
  | .ori rd rs1 imm   => encodeI imm rs1 0b110 rd 0b0010011
  | .andi rd rs1 imm  => encodeI imm rs1 0b111 rd 0b0010011
  | .slli rd rs1 sh   => encodeR 0b0000000 sh rs1 0b001 rd 0b0010011
  | .srli rd rs1 sh   => encodeR 0b0000000 sh rs1 0b101 rd 0b0010011
  | .srai rd rs1 sh   => encodeR 0b0100000 sh rs1 0b101 rd 0b0010011
  | .lb rd rs1 imm    => encodeI imm rs1 0b000 rd 0b0000011
  | .lh rd rs1 imm    => encodeI imm rs1 0b001 rd 0b0000011
  | .lw rd rs1 imm    => encodeI imm rs1 0b010 rd 0b0000011
  | .lbu rd rs1 imm   => encodeI imm rs1 0b100 rd 0b0000011
  | .lhu rd rs1 imm   => encodeI imm rs1 0b101 rd 0b0000011
  | .sb rs1 rs2 imm   => encodeS imm rs2 rs1 0b000 0b0100011
  | .sh rs1 rs2 imm   => encodeS imm rs2 rs1 0b001 0b0100011
  | .sw rs1 rs2 imm   => encodeS imm rs2 rs1 0b010 0b0100011
  | .beq rs1 rs2 off  => encodeB off rs2 rs1 0b000 0b1100011
  | .bne rs1 rs2 off  => encodeB off rs2 rs1 0b001 0b1100011
  | .blt rs1 rs2 off  => encodeB off rs2 rs1 0b100 0b1100011
  | .bge rs1 rs2 off  => encodeB off rs2 rs1 0b101 0b1100011
  | .bltu rs1 rs2 off => encodeB off rs2 rs1 0b110 0b1100011
  | .bgeu rs1 rs2 off => encodeB off rs2 rs1 0b111 0b1100011
  | .jal rd off       => encodeJ off rd 0b1101111
  | .jalr rd rs1 imm  => encodeI imm rs1 0b000 rd 0b1100111
  | .lui rd imm20     => encodeU imm20 rd 0b0110111
  | .auipc rd imm20   => encodeU imm20 rd 0b0010111

/-! ## The opcode map (R105): a second view of the same encodings -/

/-- One line of the opcode map: a word `w` is the instruction of the row exactly when `w & mask = match`. -/
structure OpcodeRow where
  mnemonic  : String
  matchBits : Word
  mask      : Word
  deriving DecidableEq, Repr

/-- `w & mask = match` (R105). -/
def OpcodeRow.Selects (r : OpcodeRow) (w : Word) : Bool := w &&& r.mask == r.matchBits

/-- The map's rows for the register-register and register-immediate instructions. -/
def opcodeRowsAlu : List OpcodeRow :=
  [⟨"ADD",   0x00000033, 0xFE00707F⟩, ⟨"SUB",   0x40000033, 0xFE00707F⟩, ⟨"SLL",   0x00001033, 0xFE00707F⟩,
   ⟨"SLT",   0x00002033, 0xFE00707F⟩, ⟨"SLTU",  0x00003033, 0xFE00707F⟩, ⟨"XOR",   0x00004033, 0xFE00707F⟩,
   ⟨"SRL",   0x00005033, 0xFE00707F⟩, ⟨"SRA",   0x40005033, 0xFE00707F⟩, ⟨"OR",    0x00006033, 0xFE00707F⟩,
   ⟨"AND",   0x00007033, 0xFE00707F⟩, ⟨"ADDI",  0x00000013, 0x0000707F⟩, ⟨"SLTI",  0x00002013, 0x0000707F⟩,
   ⟨"SLTIU", 0x00003013, 0x0000707F⟩, ⟨"XORI",  0x00004013, 0x0000707F⟩, ⟨"ORI",   0x00006013, 0x0000707F⟩,
   ⟨"ANDI",  0x00007013, 0x0000707F⟩, ⟨"SLLI",  0x00001013, 0xFE00707F⟩, ⟨"SRLI",  0x00005013, 0xFE00707F⟩,
   ⟨"SRAI",  0x40005013, 0xFE00707F⟩]

/-- The map's rows for loads, stores, branches, jumps and the upper immediates. -/
def opcodeRowsRest : List OpcodeRow :=
  [⟨"LB",    0x00000003, 0x0000707F⟩, ⟨"LH",    0x00001003, 0x0000707F⟩, ⟨"LW",    0x00002003, 0x0000707F⟩,
   ⟨"LBU",   0x00004003, 0x0000707F⟩, ⟨"LHU",   0x00005003, 0x0000707F⟩, ⟨"SB",    0x00000023, 0x0000707F⟩,
   ⟨"SH",    0x00001023, 0x0000707F⟩, ⟨"SW",    0x00002023, 0x0000707F⟩, ⟨"BEQ",   0x00000063, 0x0000707F⟩,
   ⟨"BNE",   0x00001063, 0x0000707F⟩, ⟨"BLT",   0x00004063, 0x0000707F⟩, ⟨"BGE",   0x00005063, 0x0000707F⟩,
   ⟨"BLTU",  0x00006063, 0x0000707F⟩, ⟨"BGEU",  0x00007063, 0x0000707F⟩, ⟨"JAL",   0x0000006F, 0x0000007F⟩,
   ⟨"JALR",  0x00000067, 0x0000707F⟩, ⟨"LUI",   0x00000037, 0x0000007F⟩, ⟨"AUIPC", 0x00000017, 0x0000007F⟩]

/-- The 37 rows of rule R105. -/
def opcodeMap : List OpcodeRow := opcodeRowsAlu ++ opcodeRowsRest

end Sys2Proof
end

