-- ==== Sys2Proof/Config.lean ====
section
/-! DEFINITION. What an implementation fixes when a Hart is constructed (00_scope.md rule R9): the arena length and the
I/O Bridge table, as plain data that every claim quantifies over; the spec's test fixture T0 (95_test_vectors.md
section 0); and the host-side actuator view ACT_VIEW (70_reset_and_hazards.md rule R299), whose layout no source gives. -/

namespace Sys2Proof

/-- The kind of a block of IOMAP (R57). -/
inductive BlockKind where
  /-- Block A: bytes stored here are appended to the log (R59). -/
  | log
  /-- Block B: the host's read-only snapshot (R60). -/
  | sensor
  /-- Block C: the actuator bytes, with read-back (R61). -/
  | actuator
  /-- Blocks D, E, F: read as zero, writes ignored (R62). -/
  | reserved
  deriving DecidableEq, Repr

/-- One range `[base, base + len)` of the arena's addresses (R57). -/
structure Block where
  base : Nat
  len  : Nat
  deriving DecidableEq, Repr

/-- IOMAP: the six blocks A to F (R57). A block's kind is its place in the table. -/
structure IoMap where
  /-- Block A, Log. -/
  log    : Block
  /-- Block B, Sensor. -/
  sensor : Block
  /-- Block C, Actuator. -/
  act    : Block
  /-- Block D, Reserved. -/
  resD   : Block
  /-- Block E, Reserved. -/
  resE   : Block
  /-- Block F, Reserved. -/
  resF   : Block
  deriving DecidableEq, Repr

/-- The six entries of the table, in the order A to F, each with its kind (R57). -/
def IoMap.blocks (m : IoMap) : List (BlockKind × Block) :=
  [(.log, m.log), (.sensor, m.sensor), (.actuator, m.act),
   (.reserved, m.resD), (.reserved, m.resE), (.reserved, m.resF)]

/-- The parameters a Hart is constructed with and that nothing changes afterwards (R9, R20, R57: "fixed at Hart
construction time and immutable thereafter"). Their numbers are OPEN in the spec. -/
structure Params where
  /-- ARENA_LEN: the length of the Memory Arena in bytes. -/
  arenaLen : Nat
  /-- IOMAP: the I/O Bridge table. -/
  ioMap    : IoMap
  deriving DecidableEq, Repr

/-- Two blocks have no byte in common. -/
abbrev Block.Disjoint (b c : Block) : Prop := b.base + b.len ≤ c.base ∨ c.base + c.len ≤ b.base

/-- The constraints rule R9 puts on ARENA_LEN and IOMAP (decisions D6, D8): a multiple of 4 with
4 <= ARENA_LEN < 2^32; every block at least one byte long and inside the arena; the blocks pairwise disjoint. -/
abbrev Params.Ok (p : Params) : Prop :=
  p.arenaLen % 4 = 0 ∧ 4 ≤ p.arenaLen ∧ p.arenaLen < 2 ^ 32 ∧
  (∀ e ∈ p.ioMap.blocks, 1 ≤ e.2.len ∧ e.2.base + e.2.len ≤ p.arenaLen) ∧
  p.ioMap.blocks.Pairwise (fun e f => e.2.Disjoint f.2)

namespace Config

/-- The fixture T0 of 95_test_vectors.md section 0. It is the spec's own fixture for its vectors and no claim about
the real hardware's numbers. DESIGN CHOICE: `State.reset` is constructed with it (log 2). Unsafe only for claims
about `State.reset`; every other claim quantifies over the parameters. -/
def fixtureT0 : Params where
  arenaLen := 0x10000
  ioMap :=
    { log    := ⟨0xF000, 0x100⟩
      sensor := ⟨0xF100, 0x40⟩
      act    := ⟨0xF200, 0x10⟩
      resD   := ⟨0xF300, 0x100⟩
      resE   := ⟨0xF400, 0x100⟩
      resF   := ⟨0xF500, 0x100⟩ }

end Config

/-- The control command the host reads: "accelerator, brake, steering, each a bounded scalar" (R299). No source gives
the scalars' type, so a scalar is an integer code of it. DESIGN CHOICE (log 5), safe: the decoder below is
uninterpreted, and the Hart never evaluates it. -/
structure ActuatorCommand where
  accelerator : Int
  brake       : Int
  steering    : Int
  deriving DecidableEq, Repr, Inhabited

/-- A closed range of scalar codes, `lo .. lo + span` (never empty). -/
structure ScalarRange where
  lo   : Int
  span : Nat
  deriving DecidableEq, Repr, Inhabited

namespace Config

/-- The decoding of the three fields from the ACT_LEN actuator bytes "at their fixed offsets" (R299): OPEN, so
uninterpreted (log 5). -/
opaque actDecode : List Byte → ActuatorCommand

/-- The "documented numeric range" of the accelerator field: documented nowhere, so uninterpreted (log 5). -/
opaque acceleratorRange : ScalarRange

/-- The "documented numeric range" of the brake field: documented nowhere, so uninterpreted (log 5). -/
opaque brakeRange : ScalarRange

/-- The "documented numeric range" of the steering field: documented nowhere, so uninterpreted (log 5). -/
opaque steeringRange : ScalarRange

end Config

end Sys2Proof
end

