-- ==== Sys2Proof/Machine/State.lean ====
section
/-! DEFINITION. The state of one Hart (10_state.md rules R20 to R35), the fault record (R31, 60_exceptions.md R250), the
reasons a step answers no next state, and the state after construction (R35, 70_reset_and_hazards.md R290). -/

namespace Sys2Proof.Machine

/-- The run state (R30). -/
inductive RunState where
  | running
  /-- Terminal: no step is enabled. -/
  | faulted
  deriving DecidableEq, Repr

/-- The seven kinds of run-time fault (R250). A kind is a tag: there are no numeric codes (D11). -/
inductive FaultKind where
  /-- The pc of a step is not a multiple of 4 (R251). -/
  | misalignedFetch
  /-- A fetch or a data access leaves the arena (R252). -/
  | outOfBounds
  /-- A fetch touches a device block (R253). -/
  | executeFromDevice
  /-- A store inside the sensor block (R254). -/
  | readOnlyViolation
  /-- The fetched word is no supported instruction (R255). -/
  | illegalInstruction
  /-- A taken branch or a jump to a target that is not aligned and in bounds (R256). -/
  | invalidBranchTarget
  /-- A data access that straddles the edge of a device block (R257). -/
  | misalignedDeviceAccess
  deriving DecidableEq, Repr

/-- `K(info)`: what a `raise` names (00_scope.md R13). `info` is the address of the access, the instruction word or the
rejected target, by kind (R250). -/
structure Raise where
  kind : FaultKind
  info : Word
  deriving DecidableEq, Repr

/-- The fault record (R31): kind, info, and the pc of the step that faulted. -/
structure FaultRecord where
  kind : FaultKind
  info : Word
  pc   : Word
  deriving DecidableEq, Repr

/-- The general registers `x1` .. `x31`: cell `i` holds `x(i+1)`. There is no cell for `x0` (R22). -/
abbrev Regs := Vector Word 31

/-- Memory as (address, byte) pairs in canonical form: addresses strictly rising, no entry holding 0, which is what an
unlisted byte of the arena reads as ("zero-filling the remainder", R35, R292). -/
abbrev Memory := List Host.Cell

/-- The complete state of one Hart (R20), with the parameters it was constructed with. -/
structure State where
  /-- ARENA_LEN and IOMAP: fixed at construction, read by the step, never written (R9, R20; log 1). -/
  params : Params
  /-- `x1` .. `x31` (R21); `x0` has no cell (R22). -/
  regs   : Regs
  /-- The program counter (R24). -/
  pc     : Word
  /-- The run state (R30). -/
  run    : RunState
  /-- The fault record, absent exactly while `run` is `Running` (R31). -/
  fault  : Option FaultRecord
  /-- Plain memory (R32). -/
  mem    : Memory
  /-- Every byte the guest has stored to the log block, in order (R33, R59). -/
  log    : List Byte
  /-- The current sensor snapshot, SENSOR_LEN bytes (R33, R60). -/
  sensor : List Byte
  /-- The ACT_LEN bytes last stored by the guest to the actuator block (R33, R61). -/
  act    : List Byte
  deriving DecidableEq, Repr

/-- Why the machine takes no step. The seven faults of the spec are not here: taking one is a next state (R258). -/
inductive Fault where
  /-- Raised by `step` alone, on a Hart whose run state is `Faulted`: "no step is enabled" (R30; 93 U17: stuck by design),
  "never stepped again" (R259). It carries the stored record, which a run call returns (R296). Safe: the spec gives
  such a step no effect. -/
  | hartFaulted (record : Option FaultRecord)
  deriving DecidableEq, Repr

/-- Why an instruction has no meaning in the model. -/
inductive Refusal where
  /-- An arm of `exec` whose instruction is not modelled. No arm answers it: all 37 instructions have a meaning. Safe. -/
  | notModelled (mnemonic : String)
  deriving DecidableEq, Repr

/-- Construction, the only reset this hardware has (R35, R290): registers 0 (INIT_REGS, D5), `pc` the entry address,
`Running`, no fault, `mem` the Loader's image, the log empty, the sensor and actuator bytes 0 (D13, D14). -/
def State.construct (p : Params) (image : Memory) (entry : Word) : State where
  params := p
  regs   := Vector.replicate 31 0
  pc     := entry
  run    := .running
  fault  := none
  mem    := image
  log    := []
  sensor := List.replicate p.ioMap.sensor.len 0
  act    := List.replicate p.ioMap.act.len 0

/-- The machine right after reset. The spec leaves ARENA_LEN, IOMAP, the image and the entry address to the construction
(R290, R291: "There is no reset vector"). DESIGN CHOICE (log 2), unsafe for claims about this one state: the fixture T0,
no image byte listed, entry 0. -/
def State.reset : State := State.construct Config.fixtureT0 [] 0

end Sys2Proof.Machine
end

