-- ==== Sys2Proof/Machine/IoBridge.lean ====
section
/-! DEFINITION. The I/O Bridge's view of an access (20_memory.md rules R53, R54, R57, R58): which blocks its bytes touch, and
whether it is plain, wholly inside one block, or a straddle. -/

namespace Sys2Proof.Machine

/-- At least one of the bytes `a .. a+n-1` lies in the block. -/
def touches (b : Block) (a n : Nat) : Bool := decide (max a b.base < min (a + n) (b.base + b.len))

/-- All of the bytes `a .. a+n-1` lie in the block. -/
def covers (b : Block) (a n : Nat) : Bool := decide (b.base ≤ a ∧ a + n ≤ b.base + b.len)

/-- `S` of rules R53 and R54: the blocks that contain at least one of the bytes. -/
def touched (m : IoMap) (a n : Nat) : List (BlockKind × Block) := m.blocks.filter (fun e => touches e.2 a n)

/-- Where an access of bytes `a .. a+n-1` falls. -/
inductive Place where
  /-- No byte is in any block (step 2 of R53, R54; gaps: R63). -/
  | plain
  /-- Every byte is in one block, from offset `off` on (step 4). -/
  | inside (kind : BlockKind) (off : Nat)
  /-- Some byte is in a block and not all are in that one (step 3; R58). -/
  | straddle
  deriving DecidableEq, Repr

/-- Steps 2 and 3 of rules R53 and R54. -/
def place (m : IoMap) (a n : Nat) : Place :=
  match touched m a n with
  | []       => .plain
  | [(k, b)] => if covers b a n then .inside k (a - b.base) else .straddle
  | _        => .straddle

end Sys2Proof.Machine
end

