-- ==== Sys2Proof/Machine/Ops.lean ====
section
/-! DEFINITION. The named operations over registers, pc, memory and devices that every meaning is written with
(00_scope.md rule R13), and taking a fault (60_exceptions.md rule R258). There is no return from a trap beside it:
"nothing is ever restored" (R261). -/

namespace Sys2Proof.Machine

/-! ## Registers (R22, R23) -/

/-- The cell of a register other than `x0`. -/
theorem cell_lt {i : RegIdx} (h : i ≠ 0#5) : i.toNat - 1 < 31 := by
  have h1 := i.isLt
  have h2 : i.toNat ≠ 0 := fun e => h (BitVec.eq_of_toNat_eq (by simpa using e))
  omega

/-- `x[i]`: `x0` reads as 0. -/
def Regs.read (r : Regs) (i : RegIdx) : Word :=
  if h : i = 0#5 then 0 else r[i.toNat - 1]'(cell_lt h)

/-- `x[i] <- v`: no effect when `i = 0`. -/
def Regs.write (r : Regs) (i : RegIdx) (v : Word) : Regs :=
  if h : i = 0#5 then r else r.set (i.toNat - 1) v (cell_lt h)

/-- `x[i]`. -/
def State.readReg (s : State) (i : RegIdx) : Word := Regs.read s.regs i

/-- `x[i] <- v`. -/
def State.writeReg (s : State) (i : RegIdx) (v : Word) : State := { s with regs := Regs.write s.regs i v }

/-! ## Program counter (R24, R25) -/

/-- `pc <- t`. -/
def State.setPc (s : State) (t : Word) : State := { s with pc := t }

/-- The address after this instruction, `pc + 4`: where a sequential instruction goes, and the link value of a jump. -/
def State.nextPc (s : State) : Word := s.pc + 4

/-- `pc <- pc + 4`. -/
def State.advance (s : State) : State := s.setPc s.nextPc

/-! ## Memory and devices -/

def State.withMem (s : State) (m : Memory) : State := { s with mem := m }
def State.withLog (s : State) (l : List Byte) : State := { s with log := l }
def State.withAct (s : State) (a : List Byte) : State := { s with act := a }
def State.withSensor (s : State) (b : List Byte) : State := { s with sensor := b }

/-- The three access widths (R52). -/
inductive Width where
  | byte
  | half
  | word
  deriving DecidableEq, Repr

/-- The number of bytes of an access. -/
def Width.bytes : Width → Nat
  | .byte => 1
  | .half => 2
  | .word => 4

/-- The bounds check, in unbounded integers (R56): the access `a .. a+n-1` leaves the arena. -/
def leavesArena (s : State) (a : Word) (n : Nat) : Bool := decide (s.params.arenaLen < a.toNat + n)

/-- `MemRead(addr, n)` (R53), for `n` the bytes of `w`: the value read, zero-extended to a word, or what it raises. -/
def memRead (s : State) (a : Word) (w : Width) : Except Raise Word :=
  if leavesArena s a w.bytes then .error ⟨.outOfBounds, a⟩
  else
    match place s.params.ioMap a.toNat w.bytes with
    | .plain             => .ok (wordOf (readBytes (Memory.read s.mem) a.toNat w.bytes))
    | .straddle          => .error ⟨.misalignedDeviceAccess, a⟩
    | .inside .log _     => .ok 0
    | .inside .sensor o  => .ok (wordOf (readBytes (byteAt s.sensor) o w.bytes))
    | .inside .actuator o => .ok (wordOf (readBytes (byteAt s.act) o w.bytes))
    | .inside .reserved _ => .ok 0

/-- `MemWrite(addr, n, v)` (R54), for `n` the bytes of `w` and `v` the low `8n` bits of the word: the state after the
write, or what it raises. -/
def memWrite (s : State) (a : Word) (w : Width) (v : Word) : Except Raise State :=
  if leavesArena s a w.bytes then .error ⟨.outOfBounds, a⟩
  else
    match place s.params.ioMap a.toNat w.bytes with
    | .plain             => .ok (s.withMem (Memory.writeBytes s.mem a.toNat (bytesOf v w.bytes)))
    | .straddle          => .error ⟨.misalignedDeviceAccess, a⟩
    | .inside .log _     => .ok (s.withLog (s.log ++ bytesOf v w.bytes))
    | .inside .sensor _  => .error ⟨.readOnlyViolation, a⟩
    | .inside .actuator o => .ok (s.withAct (layBytes s.act o (bytesOf v w.bytes)))
    | .inside .reserved _ => .ok s

/-- An address whose two low bits are 0 (R24, R195). -/
def aligned4 (a : Word) : Bool := a.extractLsb' 0 2 == 0#2

/-- `Fetch(pc)` (R55): the instruction word at the pc, or what it raises. -/
def fetch (s : State) : Except Raise Word :=
  if !aligned4 s.pc then .error ⟨.misalignedFetch, s.pc⟩
  else if leavesArena s s.pc 4 then .error ⟨.outOfBounds, s.pc⟩
  else if !(touched s.params.ioMap s.pc.toNat 4).isEmpty then .error ⟨.executeFromDevice, s.pc⟩
  else .ok (wordOf (readBytes (Memory.read s.mem) s.pc.toNat 4))

/-- `CheckTarget(t)` (R195): what it raises, if anything. It does not look at the I/O table. -/
def checkTarget (s : State) (t : Word) : Option Raise :=
  if !aligned4 t then some ⟨.invalidBranchTarget, t⟩
  else if leavesArena s t 4 then some ⟨.invalidBranchTarget, t⟩
  else none

/-! ## The outcome of a step -/

/-- The outcome type of a meaning. -/
abbrev Result := Host.Outcome State Fault Refusal

/-- Fault entry, `raise K(info)` (R258): the run state and the record, and nothing else (R37). -/
def State.takeFault (s : State) (r : Raise) : State :=
  { s with run := .faulted, fault := some ⟨r.kind, r.info, s.pc⟩ }

/-- The step ends in a fault: the Hart's next state is the faulted one. -/
def raise (s : State) (r : Raise) : Result := .next (s.takeFault r)

/-- `x[rd] <- v ; pc <- pc + 4`: the end of every instruction that writes a register and goes on in sequence. -/
def writeBack (s : State) (rd : RegIdx) (v : Word) : Result := .next ((s.writeReg rd v).advance)

end Sys2Proof.Machine
end

