-- ==== Sys2Proof/Machine/Flags.lean ====
section
/-! DEFINITION. Comparisons. The hardware has no flags (10_state.md rule R27): "comparisons write 0 or 1 to a general
register (SLT, SLTU, SLTI, SLTIU) or decide a branch directly". Signed and unsigned readings: 00_scope.md rules R10, R11. -/

namespace Sys2Proof.Machine

/-- `a <s b`: as two's complement signed numbers. -/
def lessSigned (a b : Word) : Bool := decide (a.toInt < b.toInt)

/-- `a <u b`: as unsigned numbers. -/
def lessUnsigned (a b : Word) : Bool := decide (a.toNat < b.toNat)

/-- The 0 or 1 a comparison writes to a register (R130). -/
def flagWord (c : Bool) : Word := if c then 1 else 0

end Sys2Proof.Machine
end

