-- ==== Sys2Proof/Machine/Operands.lean ====
section
/-! DEFINITION. The operand forms: which values an instruction of each shape reads, and the addresses and targets it forms
(40_register_register.md R130, 41 R150, 42 R170, 43 R185, 44 R202, 45 R210, R211, 46 R222), with the shapes of the
meanings themselves, each written once. -/

namespace Sys2Proof.Machine

/-! ## Shifts (R11, R103) -/

/-- The amount of a register shift: `b[4:0]` (R103, R130). -/
def shiftAmount (b : Word) : BitVec 5 := b.extractLsb' 0 5

/-- `a << n`: zeros enter at bit 0. -/
def shiftLeft (a : Word) (n : BitVec 5) : Word := a <<< n.toNat

/-- `a >>u n`: zeros enter at bit 31. -/
def shiftRightLogical (a : Word) (n : BitVec 5) : Word := a >>> n.toNat

/-- `a >>s n`: copies of bit 31 enter at bit 31. -/
def shiftRightArith (a : Word) (n : BitVec 5) : Word := a.sshiftRight n.toNat

/-! ## Addresses and targets -/

/-- `ea = x[rs1] + imm`, the one addressing mode of loads and stores, modulo 2^32 (R170, R185). -/
def effectiveAddress (s : State) (rs1 : RegIdx) (imm : BitVec 12) : Word := s.readReg rs1 + sextImm imm

/-- `pc + imm_B`, modulo 2^32 (R202). -/
def branchTarget (s : State) (off : BitVec 13) : Word := s.pc + sextImm off

/-- `pc + imm_J`, modulo 2^32 (R210). -/
def jalTarget (s : State) (off : BitVec 21) : Word := s.pc + sextImm off

/-- `(x[rs1] + imm_I) & 0xFFFFFFFE` (R211). -/
def jalrTarget (s : State) (rs1 : RegIdx) (imm : BitVec 12) : Word :=
  (s.readReg rs1 + sextImm imm) &&& 0xFFFFFFFE

/-- `imm_U = inst[31:12] ++ 0x000` (R101). -/
def upperImm (imm20 : BitVec 20) : Word := imm20 ++ 0#12

/-! ## The shapes of the meanings -/

/-- A register-register instruction that computes `f` of its sources (R130). -/
def binary (f : Word → Word → Word) (rd rs1 rs2 : RegIdx) (s : State) : Result :=
  writeBack s rd (f (s.readReg rs1) (s.readReg rs2))

/-- A register-immediate instruction that computes `f` of its source and the sign-extended immediate (R150). -/
def binaryImm (f : Word → Word → Word) (rd rs1 : RegIdx) (imm : BitVec 12) (s : State) : Result :=
  writeBack s rd (f (s.readReg rs1) (sextImm imm))

/-- A shift by a register (R130, R103). -/
def shiftReg (f : Word → BitVec 5 → Word) (rd rs1 rs2 : RegIdx) (s : State) : Result :=
  writeBack s rd (f (s.readReg rs1) (shiftAmount (s.readReg rs2)))

/-- A shift by an immediate (R150, R103). -/
def shiftImm (f : Word → BitVec 5 → Word) (rd rs1 : RegIdx) (shamt : BitVec 5) (s : State) : Result :=
  writeBack s rd (f (s.readReg rs1) shamt)

/-- A load of width `w`, its value extended by `ext` (R170). -/
def load (w : Width) (ext : Word → Word) (rd rs1 : RegIdx) (imm : BitVec 12) (s : State) : Result :=
  match memRead s (effectiveAddress s rs1 imm) w with
  | .ok v    => writeBack s rd (ext v)
  | .error r => raise s r

/-- A store of width `w` (R185). -/
def store (w : Width) (rs1 rs2 : RegIdx) (imm : BitVec 12) (s : State) : Result :=
  match memWrite s (effectiveAddress s rs1 imm) w (s.readReg rs2) with
  | .ok t    => .next t.advance
  | .error r => raise s r

/-- A conditional branch with condition `c` of its sources (44_branches.md, the common pseudocode). The target is checked
only when the branch is taken (R195). -/
def branch (c : Word → Word → Bool) (rs1 rs2 : RegIdx) (off : BitVec 13) (s : State) : Result :=
  if c (s.readReg rs1) (s.readReg rs2) then
    match checkTarget s (branchTarget s off) with
    | some r => raise s r
    | none   => .next (s.setPc (branchTarget s off))
  else .next s.advance

/-- A jump to `t` that links to `rd` (R212): the check comes before the link register and the pc are written. -/
def jumpAndLink (rd : RegIdx) (t : Word) (s : State) : Result :=
  match checkTarget s t with
  | some r => raise s r
  | none   => .next ((s.writeReg rd s.nextPc).setPc t)

end Sys2Proof.Machine
end

