-- ==== Sys2Proof/Machine/Branches.lean ====
section
/-! DEFINITION. The conditional branches (44_branches.md rules R195 to R202). No register and no memory is written; the target of a
branch that is not taken is not checked. -/

namespace Sys2Proof.Machine

/-- BEQ: branch if equal, `x[rs1] == x[rs2]` (R196). -/
def execBeq (rs1 rs2 : RegIdx) (off : BitVec 13) (s : State) : Result := branch (fun a b => a == b) rs1 rs2 off s

/-- BNE: branch if not equal, `x[rs1] != x[rs2]` (R197). -/
def execBne (rs1 rs2 : RegIdx) (off : BitVec 13) (s : State) : Result := branch (fun a b => a != b) rs1 rs2 off s

/-- BLT: branch if less than, signed (R198). -/
def execBlt (rs1 rs2 : RegIdx) (off : BitVec 13) (s : State) : Result := branch lessSigned rs1 rs2 off s

/-- BGE: branch if greater or equal, signed (R199). -/
def execBge (rs1 rs2 : RegIdx) (off : BitVec 13) (s : State) : Result :=
  branch (fun a b => !lessSigned a b) rs1 rs2 off s

/-- BLTU: branch if less than, unsigned (R200). -/
def execBltu (rs1 rs2 : RegIdx) (off : BitVec 13) (s : State) : Result := branch lessUnsigned rs1 rs2 off s

/-- BGEU: branch if greater or equal, unsigned (R201). -/
def execBgeu (rs1 rs2 : RegIdx) (off : BitVec 13) (s : State) : Result :=
  branch (fun a b => !lessUnsigned a b) rs1 rs2 off s

end Sys2Proof.Machine
end

