-- ==== Sys2Proof/Machine/Jumps.lean ====
section
/-! DEFINITION. The jumps (45_jumps.md rules R210 to R212). The target is formed from the old register values and checked before the
link register and the pc are written. -/

namespace Sys2Proof.Machine

/-- JAL: `t <- pc + imm_J`, check, `x[rd] <- pc + 4`, `pc <- t` (R210). -/
def execJal (rd : RegIdx) (off : BitVec 21) (s : State) : Result := jumpAndLink rd (jalTarget s off) s

/-- JALR: `t <- (x[rs1] + imm_I) & 0xFFFFFFFE`, check, `x[rd] <- pc + 4`, `pc <- t` (R211). -/
def execJalr (rd rs1 : RegIdx) (imm : BitVec 12) (s : State) : Result := jumpAndLink rd (jalrTarget s rs1 imm) s

end Sys2Proof.Machine
end

