-- ==== Sys2Proof/Machine/Loads.lean ====
section
/-! DEFINITION. The loads (42_loads.md rules R170 to R175): `ea <- x[rs1] + imm_I`, `MemRead(ea, n)`, extend, write `rd`. A fault of the
read is the Hart's fault and leaves `rd` and the pc as they were. -/

namespace Sys2Proof.Machine

/-- LB: load byte, sign-extended (R171). -/
def execLb (rd rs1 : RegIdx) (imm : BitVec 12) (s : State) : Result := load .byte sext8 rd rs1 imm s

/-- LH: load halfword, sign-extended (R172). -/
def execLh (rd rs1 : RegIdx) (imm : BitVec 12) (s : State) : Result := load .half sext16 rd rs1 imm s

/-- LW: load word (R173). -/
def execLw (rd rs1 : RegIdx) (imm : BitVec 12) (s : State) : Result := load .word id rd rs1 imm s

/-- LBU: load byte, zero-extended (R174). -/
def execLbu (rd rs1 : RegIdx) (imm : BitVec 12) (s : State) : Result := load .byte zext8 rd rs1 imm s

/-- LHU: load halfword, zero-extended (R175). -/
def execLhu (rd rs1 : RegIdx) (imm : BitVec 12) (s : State) : Result := load .half zext16 rd rs1 imm s

end Sys2Proof.Machine
end

