-- ==== Sys2Proof/Machine/RegImm.lean ====
section
/-! DEFINITION. The register-immediate instructions (41_register_immediate.md rules R150 to R159). The constant is `imm_I`, the
12-bit immediate sign-extended, or the 5-bit `shamt`. -/

namespace Sys2Proof.Machine

/-- ADDI: `x[rd] <- x[rs1] + imm_I`, modulo 2^32 (R151). -/
def execAddi (rd rs1 : RegIdx) (imm : BitVec 12) (s : State) : Result := binaryImm (· + ·) rd rs1 imm s

/-- SLTI: `x[rd] <- if s(x[rs1]) < s(imm_I) then 1 else 0` (R152). -/
def execSlti (rd rs1 : RegIdx) (imm : BitVec 12) (s : State) : Result :=
  binaryImm (fun a b => flagWord (lessSigned a b)) rd rs1 imm s

/-- SLTIU: `x[rd] <- if u(x[rs1]) < u(imm_I) then 1 else 0`, `imm_I` sign-extended first (R153). -/
def execSltiu (rd rs1 : RegIdx) (imm : BitVec 12) (s : State) : Result :=
  binaryImm (fun a b => flagWord (lessUnsigned a b)) rd rs1 imm s

/-- XORI: `x[rd] <- x[rs1] ^ imm_I` (R154). -/
def execXori (rd rs1 : RegIdx) (imm : BitVec 12) (s : State) : Result := binaryImm (· ^^^ ·) rd rs1 imm s

/-- ORI: `x[rd] <- x[rs1] | imm_I` (R155). -/
def execOri (rd rs1 : RegIdx) (imm : BitVec 12) (s : State) : Result := binaryImm (· ||| ·) rd rs1 imm s

/-- ANDI: `x[rd] <- x[rs1] & imm_I` (R156). -/
def execAndi (rd rs1 : RegIdx) (imm : BitVec 12) (s : State) : Result := binaryImm (· &&& ·) rd rs1 imm s

/-- SLLI: `x[rd] <- x[rs1] << shamt` (R157). -/
def execSlli (rd rs1 : RegIdx) (shamt : BitVec 5) (s : State) : Result := shiftImm shiftLeft rd rs1 shamt s

/-- SRLI: `x[rd] <- x[rs1] >>u shamt` (R158). -/
def execSrli (rd rs1 : RegIdx) (shamt : BitVec 5) (s : State) : Result := shiftImm shiftRightLogical rd rs1 shamt s

/-- SRAI: `x[rd] <- x[rs1] >>s shamt` (R159). -/
def execSrai (rd rs1 : RegIdx) (shamt : BitVec 5) (s : State) : Result := shiftImm shiftRightArith rd rs1 shamt s

end Sys2Proof.Machine
end

