-- ==== Sys2Proof/Machine/RegReg.lean ====
section
/-! DEFINITION. The register-register instructions (40_register_register.md rules R130 to R140). None accesses memory,
reads the pc, can fault after decode, or writes a flag. -/

namespace Sys2Proof.Machine

/-- ADD: `x[rd] <- x[rs1] + x[rs2]`, modulo 2^32 (R131). -/
def execAdd (rd rs1 rs2 : RegIdx) (s : State) : Result := binary (· + ·) rd rs1 rs2 s

/-- SUB: `x[rd] <- x[rs1] - x[rs2]`, modulo 2^32 (R132). -/
def execSub (rd rs1 rs2 : RegIdx) (s : State) : Result := binary (· - ·) rd rs1 rs2 s

/-- SLL: `x[rd] <- x[rs1] << x[rs2][4:0]` (R133). -/
def execSll (rd rs1 rs2 : RegIdx) (s : State) : Result := shiftReg shiftLeft rd rs1 rs2 s

/-- SLT: `x[rd] <- if s(x[rs1]) < s(x[rs2]) then 1 else 0` (R134). -/
def execSlt (rd rs1 rs2 : RegIdx) (s : State) : Result := binary (fun a b => flagWord (lessSigned a b)) rd rs1 rs2 s

/-- SLTU: `x[rd] <- if u(x[rs1]) < u(x[rs2]) then 1 else 0` (R135). -/
def execSltu (rd rs1 rs2 : RegIdx) (s : State) : Result := binary (fun a b => flagWord (lessUnsigned a b)) rd rs1 rs2 s

/-- XOR: `x[rd] <- x[rs1] ^ x[rs2]` (R136). -/
def execXor (rd rs1 rs2 : RegIdx) (s : State) : Result := binary (· ^^^ ·) rd rs1 rs2 s

/-- SRL: `x[rd] <- x[rs1] >>u x[rs2][4:0]` (R137). -/
def execSrl (rd rs1 rs2 : RegIdx) (s : State) : Result := shiftReg shiftRightLogical rd rs1 rs2 s

/-- SRA: `x[rd] <- x[rs1] >>s x[rs2][4:0]` (R138). -/
def execSra (rd rs1 rs2 : RegIdx) (s : State) : Result := shiftReg shiftRightArith rd rs1 rs2 s

/-- OR: `x[rd] <- x[rs1] | x[rs2]` (R139). -/
def execOr (rd rs1 rs2 : RegIdx) (s : State) : Result := binary (· ||| ·) rd rs1 rs2 s

/-- AND: `x[rd] <- x[rs1] & x[rs2]` (R140). -/
def execAnd (rd rs1 rs2 : RegIdx) (s : State) : Result := binary (· &&& ·) rd rs1 rs2 s

end Sys2Proof.Machine
end

