-- ==== Sys2Proof/Machine/Stores.lean ====
section
/-! DEFINITION. The stores (43_stores.md rules R185 to R188): `ea <- x[rs1] + imm_S`, `MemWrite(ea, n, x[rs2])`. No register is written. -/

namespace Sys2Proof.Machine

/-- SB: store byte `x[rs2][7:0]` (R186). -/
def execSb (rs1 rs2 : RegIdx) (imm : BitVec 12) (s : State) : Result := store .byte rs1 rs2 imm s

/-- SH: store halfword `x[rs2][15:0]` (R187). -/
def execSh (rs1 rs2 : RegIdx) (imm : BitVec 12) (s : State) : Result := store .half rs1 rs2 imm s

/-- SW: store word (R188). -/
def execSw (rs1 rs2 : RegIdx) (imm : BitVec 12) (s : State) : Result := store .word rs1 rs2 imm s

end Sys2Proof.Machine
end

