-- ==== Sys2Proof/Machine/UpperImm.lean ====
section
/-! DEFINITION. The upper-immediate instructions (46_upper_immediate.md rules R220 to R222). Neither reads a register, accesses memory
or faults. -/

namespace Sys2Proof.Machine

/-- LUI: `x[rd] <- imm_U` (R220). -/
def execLui (rd : RegIdx) (imm20 : BitVec 20) (s : State) : Result := writeBack s rd (upperImm imm20)

/-- AUIPC: `x[rd] <- pc + imm_U`, modulo 2^32, with the pc of this instruction (R221). -/
def execAuipc (rd : RegIdx) (imm20 : BitVec 20) (s : State) : Result := writeBack s rd (s.pc + upperImm imm20)

end Sys2Proof.Machine
end

