-- ==== Sys2Proof/Machine/Step.lean ====
section
/-! DEFINITION. One step of the Hart (10_state.md rule R36): fetch, decode, execute. -/

namespace Sys2Proof.Machine

/-- `Step()` (R36). It requires `run = Running`: on a `Faulted` Hart no step is enabled (R30). A fetch that raises and a word
the decoder refuses are faults of the Hart (R55, R104, R255), taken as R258 says; a decoded instruction is executed. -/
def step (s : State) : Host.Outcome State Fault Refusal :=
  match s.run with
  | .faulted => .fault (.hartFaulted s.fault)
  | .running =>
    match fetch s with
    | .error r => raise s r
    | .ok inst =>
      match decode inst with
      | .error _ => raise s ⟨.illegalInstruction, inst⟩
      | .ok i    => exec i s

/-- `s` with the instruction that the opcode table numbers `w` on `nbits` bits stored at the pc, where the next step
fetches it: it stands for the load of a program from outside the machine (log 3). -/
def State.withFetchWord (s : State) (nbits w : Nat) : State :=
  s.withMem (Memory.writeBytes s.mem s.pc.toNat (bytesOf (tableWord nbits w) 4))

end Sys2Proof.Machine
end

