-- ==== Sys2Proof/Machine/Assembler.lean ====
section
/-! DEFINITION. Assembler conveniences (30_encoding.md rules R110, R111; 10_state.md R21): how the instructions are written, the
registers' names, and the expansions of the pseudo-instructions. The hardware knows none of them. -/

namespace Sys2Proof.Machine

/-- The assembly name `x0` .. `x31` (R21). -/
def regName (i : RegIdx) : String := "x" ++ toString i.toNat

/-- The RV32I ABI names, in the order of the registers (R21). -/
def abiNames : List String :=
  ["zero", "ra", "sp", "gp", "tp", "t0", "t1", "t2", "s0", "s1", "a0", "a1", "a2", "a3", "a4", "a5", "a6", "a7",
   "s2", "s3", "s4", "s5", "s6", "s7", "s8", "s9", "s10", "s11", "t3", "t4", "t5", "t6"]

/-- The ABI name of a register (R21). -/
def abiName (i : RegIdx) : String := abiNames.getD i.toNat ""

/-- `op rd, rs1, rs2` -/
def asmRegs (op : String) (a b c : RegIdx) : String := op ++ " " ++ regName a ++ ", " ++ regName b ++ ", " ++ regName c
/-- `op rd, rs1, imm` -/
def asmImm (op : String) (a b : RegIdx) (v : Int) : String := op ++ " " ++ regName a ++ ", " ++ regName b ++ ", " ++ toString v
/-- `op r, imm(rs1)` -/
def asmMem (op : String) (r base : RegIdx) (v : Int) : String :=
  op ++ " " ++ regName r ++ ", " ++ toString v ++ "(" ++ regName base ++ ")"
/-- A byte offset relative to the instruction, with its sign, as in `+8` -/
def asmOffset (v : Int) : String := if v < 0 then toString v else "+" ++ toString v
/-- `op rs1, rs2, offset` -/
def asmBranch (op : String) (a b : RegIdx) (v : Int) : String := op ++ " " ++ regName a ++ ", " ++ regName b ++ ", " ++ asmOffset v
/-- `op rd, v` -/
def asmOne (op : String) (rd : RegIdx) (v : Int) : String := op ++ " " ++ regName rd ++ ", " ++ toString v

/-- The instruction in the assembly syntax of R110. -/
def asm : Instr → String
  | .add rd rs1 rs2   => asmRegs "add" rd rs1 rs2
  | .sub rd rs1 rs2   => asmRegs "sub" rd rs1 rs2
  | .sll rd rs1 rs2   => asmRegs "sll" rd rs1 rs2
  | .slt rd rs1 rs2   => asmRegs "slt" rd rs1 rs2
  | .sltu rd rs1 rs2  => asmRegs "sltu" rd rs1 rs2
  | .xor rd rs1 rs2   => asmRegs "xor" rd rs1 rs2
  | .srl rd rs1 rs2   => asmRegs "srl" rd rs1 rs2
  | .sra rd rs1 rs2   => asmRegs "sra" rd rs1 rs2
  | .or rd rs1 rs2    => asmRegs "or" rd rs1 rs2
  | .and rd rs1 rs2   => asmRegs "and" rd rs1 rs2
  | .addi rd rs1 imm  => asmImm "addi" rd rs1 imm.toInt
  | .slti rd rs1 imm  => asmImm "slti" rd rs1 imm.toInt
  | .sltiu rd rs1 imm => asmImm "sltiu" rd rs1 imm.toInt
  | .xori rd rs1 imm  => asmImm "xori" rd rs1 imm.toInt
  | .ori rd rs1 imm   => asmImm "ori" rd rs1 imm.toInt
  | .andi rd rs1 imm  => asmImm "andi" rd rs1 imm.toInt
  | .slli rd rs1 sh   => asmImm "slli" rd rs1 sh.toNat
  | .srli rd rs1 sh   => asmImm "srli" rd rs1 sh.toNat
  | .srai rd rs1 sh   => asmImm "srai" rd rs1 sh.toNat
  | .lb rd rs1 imm    => asmMem "lb" rd rs1 imm.toInt
  | .lh rd rs1 imm    => asmMem "lh" rd rs1 imm.toInt
  | .lw rd rs1 imm    => asmMem "lw" rd rs1 imm.toInt
  | .lbu rd rs1 imm   => asmMem "lbu" rd rs1 imm.toInt
  | .lhu rd rs1 imm   => asmMem "lhu" rd rs1 imm.toInt
  | .sb rs1 rs2 imm   => asmMem "sb" rs2 rs1 imm.toInt
  | .sh rs1 rs2 imm   => asmMem "sh" rs2 rs1 imm.toInt
  | .sw rs1 rs2 imm   => asmMem "sw" rs2 rs1 imm.toInt
  | .beq rs1 rs2 off  => asmBranch "beq" rs1 rs2 off.toInt
  | .bne rs1 rs2 off  => asmBranch "bne" rs1 rs2 off.toInt
  | .blt rs1 rs2 off  => asmBranch "blt" rs1 rs2 off.toInt
  | .bge rs1 rs2 off  => asmBranch "bge" rs1 rs2 off.toInt
  | .bltu rs1 rs2 off => asmBranch "bltu" rs1 rs2 off.toInt
  | .bgeu rs1 rs2 off => asmBranch "bgeu" rs1 rs2 off.toInt
  | .jal rd off       => "jal " ++ regName rd ++ ", " ++ asmOffset off.toInt
  | .jalr rd rs1 imm  => asmMem "jalr" rd rs1 imm.toInt
  | .lui rd imm20     => asmOne "lui" rd imm20.toNat
  | .auipc rd imm20   => asmOne "auipc" rd imm20.toNat

/-- `lo12 = sext_12(v[11:0])`, at its 12 bits (R111, R222). -/
def lo12 (v : Word) : BitVec 12 := v.extractLsb' 0 12

/-- `hi20 = ((v - lo12) >> 12)[19:0]` (R111, R222). -/
def hi20 (v : Word) : BitVec 20 := (v - sextImm (lo12 v)).extractLsb' 12 20

/-- The standard pseudo-instructions that expand into the supported subset (R111). -/
inductive Pseudo where
  | nop
  | mv    (rd rs : RegIdx)
  /-- `li` with a constant in -2048..2047. -/
  | liShort (rd : RegIdx) (imm : BitVec 12)
  /-- `li` with any 32-bit constant. -/
  | li    (rd : RegIdx) (imm : Word)
  /-- `la`, given `sym - pc`. -/
  | la    (rd : RegIdx) (delta : Word)
  | not   (rd rs : RegIdx)
  | neg   (rd rs : RegIdx)
  | seqz  (rd rs : RegIdx)
  | snez  (rd rs : RegIdx)
  | sltz  (rd rs : RegIdx)
  | sgtz  (rd rs : RegIdx)
  | beqz  (rs : RegIdx) (off : BitVec 13)
  | bnez  (rs : RegIdx) (off : BitVec 13)
  | blez  (rs : RegIdx) (off : BitVec 13)
  | bgez  (rs : RegIdx) (off : BitVec 13)
  | bltz  (rs : RegIdx) (off : BitVec 13)
  | bgtz  (rs : RegIdx) (off : BitVec 13)
  | bgt   (rs rt : RegIdx) (off : BitVec 13)
  | ble   (rs rt : RegIdx) (off : BitVec 13)
  | bgtu  (rs rt : RegIdx) (off : BitVec 13)
  | bleu  (rs rt : RegIdx) (off : BitVec 13)
  | j     (off : BitVec 21)
  | jal   (off : BitVec 21)
  | jr    (rs : RegIdx)
  | jalr  (rs : RegIdx)
  | ret
  /-- Far `call`, given the offset from its own address. -/
  | call  (off : Word)
  /-- Far `tail`, given the offset from its own address. -/
  | tail  (off : Word)
  deriving DecidableEq, Repr

/-- The expansion of a pseudo-instruction (R111). -/
def expand : Pseudo → List Instr
  | .nop            => [.addi 0 0 0]
  | .mv rd rs       => [.addi rd rs 0]
  | .liShort rd imm => [.addi rd 0 imm]
  | .li rd imm      => [.lui rd (hi20 imm), .addi rd rd (lo12 imm)]
  | .la rd delta    => [.auipc rd (hi20 delta), .addi rd rd (lo12 delta)]
  | .not rd rs      => [.xori rd rs (-1)]
  | .neg rd rs      => [.sub rd 0 rs]
  | .seqz rd rs     => [.sltiu rd rs 1]
  | .snez rd rs     => [.sltu rd 0 rs]
  | .sltz rd rs     => [.slt rd rs 0]
  | .sgtz rd rs     => [.slt rd 0 rs]
  | .beqz rs off    => [.beq rs 0 off]
  | .bnez rs off    => [.bne rs 0 off]
  | .blez rs off    => [.bge 0 rs off]
  | .bgez rs off    => [.bge rs 0 off]
  | .bltz rs off    => [.blt rs 0 off]
  | .bgtz rs off    => [.blt 0 rs off]
  | .bgt rs rt off  => [.blt rt rs off]
  | .ble rs rt off  => [.bge rt rs off]
  | .bgtu rs rt off => [.bltu rt rs off]
  | .bleu rs rt off => [.bgeu rt rs off]
  | .j off          => [.jal 0 off]
  | .jal off        => [.jal 1 off]
  | .jr rs          => [.jalr 0 rs 0]
  | .jalr rs        => [.jalr 1 rs 0]
  | .ret            => [.jalr 0 1 0]
  | .call off       => [.auipc 1 (hi20 off), .jalr 1 1 (lo12 off)]
  | .tail off       => [.auipc 6 (hi20 off), .jalr 0 6 (lo12 off)]

end Sys2Proof.Machine
end

