-- ==== Sys2Proof/Machine/RunCall.lean ====
section
/-! DEFINITION. The host's side of the Hart (70_reset_and_hazards.md): the launch predicate (R292), the budgeted run call
(R296), and what the host may do between run calls (R298, R299). -/

namespace Sys2Proof.Machine

/-! ## Construction (R290, R292) -/

/-- Every cell of `m` is plain memory of the arena: in bounds and in no block. -/
abbrev Memory.inPlain (p : Params) (m : Memory) : Prop :=
  ∀ c ∈ m, c.1 < p.arenaLen ∧ touched p.ioMap c.1 1 = []

/-- The launch predicate: what the Loader guarantees of the image and the entry address (R292). The image is the arena's
contents in canonical form, so every byte it does not list is 0; its segments lie in the arena and overlap no block. -/
abbrev LaunchOk (p : Params) (image : Memory) (entry : Word) : Prop :=
  p.Ok ∧ Memory.wf image ∧ Memory.inPlain p image ∧
  aligned4 entry = true ∧ entry.toNat + 4 ≤ p.arenaLen

/-! ## The run call (R296, R297) -/

/-- What a run call returns: `Ok` (D18), or the stored fault record. -/
inductive RunResult where
  | ok
  | fault (record : Option FaultRecord)
  deriving DecidableEq, Repr

/-- At most `n` steps, stopping where the Hart is `Faulted` (R296). -/
def runSteps : Nat → State → State
  | 0, s => s
  | n + 1, s =>
    match step s with
    | .next t    => runSteps n t
    | .fault _   => s
    | .refused _ => s

/-- The status the host reads (R264): `Ok` while `Running`, the fault record once `Faulted`. -/
def status (s : State) : RunResult :=
  match s.run with
  | .running => .ok
  | .faulted => .fault s.fault

/-- `run(budget)` (R296), with a 32-bit unsigned budget. -/
def runCall (budget : Word) (s : State) : State × RunResult :=
  (runSteps budget.toNat s, status (runSteps budget.toNat s))

/-- The run call of every Hart of a population (R274, R296): Harts share nothing, so it is the run call of each (R75). -/
def runAll (budget : Word) (harts : List State) : List (State × RunResult) := harts.map (runCall budget)

/-! ## The host between run calls (R298) -/

/-- `write_sensors`: the snapshot replaces all SENSOR_LEN bytes. A list of another length is no snapshot (R16), and
the call does not exist for it. -/
def writeSensors (snapshot : List Byte) (s : State) : Option State :=
  if snapshot.length = s.params.ioMap.sensor.len then some (s.withSensor snapshot) else none

/-- One tick (R298): the host supplies a snapshot, then the run call makes its steps. -/
def tick (snapshot : List Byte) (budget : Word) (s : State) : Option State :=
  (writeSensors snapshot s).map (fun t => (runCall budget t).1)

/-- A sequence of ticks, each with its snapshot and budget: the free inputs of a Hart's life (R298, R300). -/
def ticks : List (List Byte × Word) → State → Option State
  | [], s => some s
  | (snapshot, budget) :: rest, s =>
    match tick snapshot budget s with
    | some t => ticks rest t
    | none   => none

/-- `read_log`: the bytes appended since the host had drained `drained` of them, and how many it has drained now. The
mark is the host's: "the Hart cannot observe the drain". -/
def readLog (drained : Nat) (s : State) : List Byte × Nat := (s.log.drop drained, s.log.length)

/-- A scalar brought into its range (R299). -/
def clampScalar (r : ScalarRange) (x : Int) : Int := max r.lo (min x (r.lo + r.span))

/-- ACT_VIEW (R299): the fields decoded from the actuator bytes, each clamped to its range. -/
def actView (bytes : List Byte) : ActuatorCommand where
  accelerator := clampScalar Config.acceleratorRange (Config.actDecode bytes).accelerator
  brake       := clampScalar Config.brakeRange (Config.actDecode bytes).brake
  steering    := clampScalar Config.steeringRange (Config.actDecode bytes).steering

/-- `read_actuators`: ACT_VIEW of the actuator bytes, which it does not change. -/
def readActuators (s : State) : ActuatorCommand := actView s.act

end Sys2Proof.Machine
end

