-- ==== Sys2Proof/Safety.lean ====
section
/-! DEFINITION. The terms the claims are stated in: where the bytes of an access lie (20_memory.md rules R53 to R63, said byte
by byte, not through the machine's own `place`), what stays unchanged from one state to the next, which registers and which
faults an instruction may touch (10_state.md R23, 60_exceptions.md R250), and the invariant of a Hart. -/

namespace Sys2Proof.Machine

/-! ## Where an access lies -/

/-- Address `a` lies in the block `[base, base + len)` (R57). -/
abbrev InBlock (b : Block) (a : Nat) : Prop := b.base ≤ a ∧ a < b.base + b.len

/-- Bounds, in unbounded integers (R50, R56). -/
abbrev InArena (p : Params) (a n : Nat) : Prop := a + n ≤ p.arenaLen

/-- No byte of the access is in any block: plain memory (R16, R63). -/
abbrev OutsideBlocks (p : Params) (a n : Nat) : Prop := ∀ k < n, ∀ e ∈ p.ioMap.blocks, ¬InBlock e.2 (a + k)

/-- Every byte of the access is in the block. -/
abbrev WithinBlock (b : Block) (a n : Nat) : Prop := ∀ k < n, InBlock b (a + k)

/-- "At least one of its bytes is in some block and not all of its bytes are in that same block" (R58). -/
abbrev Straddles (p : Params) (a n : Nat) : Prop :=
  ∃ e ∈ p.ioMap.blocks, (∃ k < n, InBlock e.2 (a + k)) ∧ (∃ k < n, ¬InBlock e.2 (a + k))

/-- The byte a data read sees at address `a`: 0 in the log and reserved blocks, the snapshot, the actuator bytes, or plain
memory (R53, R59 to R63). -/
def guestByte (s : State) (a : Nat) : Byte :=
  if InBlock s.params.ioMap.log a then 0
  else if InBlock s.params.ioMap.sensor a then byteAt s.sensor (a - s.params.ioMap.sensor.base)
  else if InBlock s.params.ioMap.act a then byteAt s.act (a - s.params.ioMap.act.base)
  else if InBlock s.params.ioMap.resD a ∨ InBlock s.params.ioMap.resE a ∨ InBlock s.params.ioMap.resF a then 0
  else Memory.read s.mem a

/-- A pc value the machine may go to: a multiple of 4 with its whole instruction in the arena (R195, D6). -/
abbrev ValidTarget (p : Params) (t : Word) : Prop := t.toNat % 4 = 0 ∧ InArena p t.toNat 4

/-! ## What stays -/

/-- Every register reads as before. -/
abbrev SameRegs (s t : State) : Prop := ∀ r : RegIdx, t.readReg r = s.readReg r

/-- Every byte of memory and every device byte reads as before, and the log is as it was. -/
abbrev SameMemory (s t : State) : Prop :=
  (∀ a, Memory.read t.mem a = Memory.read s.mem a) ∧ t.log = s.log ∧ t.sensor = s.sensor ∧ t.act = s.act

/-- The run state, the fault record and the parameters are as they were. -/
abbrev SameControl (s t : State) : Prop := t.run = s.run ∧ t.fault = s.fault ∧ t.params = s.params

/-- From `s` to `t`, register `rd` takes the value `v` (nothing, if it is `x0`: R22), and everything but the pc is otherwise
as it was. -/
abbrev WritesReg (s t : State) (rd : RegIdx) (v : Word) : Prop :=
  (t.readReg rd = if rd = 0#5 then 0#32 else v) ∧ (∀ r, r ≠ rd → t.readReg r = s.readReg r) ∧
  SameMemory s t ∧ SameControl s t

/-- `x[rd] <- v ; pc <- pc + 4` and nothing else. -/
abbrev WritesRegAndAdvances (s t : State) (rd : RegIdx) (v : Word) : Prop :=
  WritesReg s t rd v ∧ t.pc = s.pc + 4

/-- The state after fault entry (R258), written out. -/
abbrev faultedState (s : State) (kind : FaultKind) (info : Word) : State :=
  { s with run := .faulted, fault := some ⟨kind, info, s.pc⟩ }

/-! ## Facts about instructions -/

/-- The register an instruction names as its destination (R23: "no register is written as a hidden side effect"). -/
def dest : Instr → Option RegIdx
  | .add rd _ _   => some rd
  | .sub rd _ _   => some rd
  | .sll rd _ _   => some rd
  | .slt rd _ _   => some rd
  | .sltu rd _ _  => some rd
  | .xor rd _ _   => some rd
  | .srl rd _ _   => some rd
  | .sra rd _ _   => some rd
  | .or rd _ _    => some rd
  | .and rd _ _   => some rd
  | .addi rd _ _  => some rd
  | .slti rd _ _  => some rd
  | .sltiu rd _ _ => some rd
  | .xori rd _ _  => some rd
  | .ori rd _ _   => some rd
  | .andi rd _ _  => some rd
  | .slli rd _ _  => some rd
  | .srli rd _ _  => some rd
  | .srai rd _ _  => some rd
  | .lb rd _ _    => some rd
  | .lh rd _ _    => some rd
  | .lw rd _ _    => some rd
  | .lbu rd _ _   => some rd
  | .lhu rd _ _   => some rd
  | .sb _ _ _     => none
  | .sh _ _ _     => none
  | .sw _ _ _     => none
  | .beq _ _ _    => none
  | .bne _ _ _    => none
  | .blt _ _ _    => none
  | .bge _ _ _    => none
  | .bltu _ _ _   => none
  | .bgeu _ _ _   => none
  | .jal rd _     => some rd
  | .jalr rd _ _  => some rd
  | .lui rd _     => some rd
  | .auipc rd _   => some rd

/-- The same instruction with `r` as its destination; one that has no destination is left as it is. -/
def withDest (r : RegIdx) : Instr → Instr
  | .add _ rs1 rs2     => .add r rs1 rs2
  | .sub _ rs1 rs2     => .sub r rs1 rs2
  | .sll _ rs1 rs2     => .sll r rs1 rs2
  | .slt _ rs1 rs2     => .slt r rs1 rs2
  | .sltu _ rs1 rs2    => .sltu r rs1 rs2
  | .xor _ rs1 rs2     => .xor r rs1 rs2
  | .srl _ rs1 rs2     => .srl r rs1 rs2
  | .sra _ rs1 rs2     => .sra r rs1 rs2
  | .or _ rs1 rs2      => .or r rs1 rs2
  | .and _ rs1 rs2     => .and r rs1 rs2
  | .addi _ rs1 imm    => .addi r rs1 imm
  | .slti _ rs1 imm    => .slti r rs1 imm
  | .sltiu _ rs1 imm   => .sltiu r rs1 imm
  | .xori _ rs1 imm    => .xori r rs1 imm
  | .ori _ rs1 imm     => .ori r rs1 imm
  | .andi _ rs1 imm    => .andi r rs1 imm
  | .slli _ rs1 sh     => .slli r rs1 sh
  | .srli _ rs1 sh     => .srli r rs1 sh
  | .srai _ rs1 sh     => .srai r rs1 sh
  | .lb _ rs1 imm      => .lb r rs1 imm
  | .lh _ rs1 imm      => .lh r rs1 imm
  | .lw _ rs1 imm      => .lw r rs1 imm
  | .lbu _ rs1 imm     => .lbu r rs1 imm
  | .lhu _ rs1 imm     => .lhu r rs1 imm
  | .sb rs1 rs2 imm    => .sb rs1 rs2 imm
  | .sh rs1 rs2 imm    => .sh rs1 rs2 imm
  | .sw rs1 rs2 imm    => .sw rs1 rs2 imm
  | .beq rs1 rs2 off   => .beq rs1 rs2 off
  | .bne rs1 rs2 off   => .bne rs1 rs2 off
  | .blt rs1 rs2 off   => .blt rs1 rs2 off
  | .bge rs1 rs2 off   => .bge rs1 rs2 off
  | .bltu rs1 rs2 off  => .bltu rs1 rs2 off
  | .bgeu rs1 rs2 off  => .bgeu rs1 rs2 off
  | .jal _ off         => .jal r off
  | .jalr _ rs1 imm    => .jalr r rs1 imm
  | .lui _ imm20       => .lui r imm20
  | .auipc _ imm20     => .auipc r imm20

/-- The kinds of fault an instruction may raise while it executes: the table of R250, "raised by", without the kinds of the
fetch and the decode. -/
def mayRaise : Instr → List FaultKind
  | .add _ _ _   => []
  | .sub _ _ _   => []
  | .sll _ _ _   => []
  | .slt _ _ _   => []
  | .sltu _ _ _  => []
  | .xor _ _ _   => []
  | .srl _ _ _   => []
  | .sra _ _ _   => []
  | .or _ _ _    => []
  | .and _ _ _   => []
  | .addi _ _ _  => []
  | .slti _ _ _  => []
  | .sltiu _ _ _ => []
  | .xori _ _ _  => []
  | .ori _ _ _   => []
  | .andi _ _ _  => []
  | .slli _ _ _  => []
  | .srli _ _ _  => []
  | .srai _ _ _  => []
  | .lb _ _ _    => [.outOfBounds]
  | .lh _ _ _    => [.outOfBounds, .misalignedDeviceAccess]
  | .lw _ _ _    => [.outOfBounds, .misalignedDeviceAccess]
  | .lbu _ _ _   => [.outOfBounds]
  | .lhu _ _ _   => [.outOfBounds, .misalignedDeviceAccess]
  | .sb _ _ _    => [.outOfBounds, .readOnlyViolation]
  | .sh _ _ _    => [.outOfBounds, .readOnlyViolation, .misalignedDeviceAccess]
  | .sw _ _ _    => [.outOfBounds, .readOnlyViolation, .misalignedDeviceAccess]
  | .beq _ _ _   => [.invalidBranchTarget]
  | .bne _ _ _   => [.invalidBranchTarget]
  | .blt _ _ _   => [.invalidBranchTarget]
  | .bge _ _ _   => [.invalidBranchTarget]
  | .bltu _ _ _  => [.invalidBranchTarget]
  | .bgeu _ _ _  => [.invalidBranchTarget]
  | .jal _ _     => [.invalidBranchTarget]
  | .jalr _ _ _  => [.invalidBranchTarget]
  | .lui _ _     => []
  | .auipc _ _   => []

/-- `pc + off` for a signed byte offset, modulo 2^32 (R202, R210). -/
abbrev pcPlus (s : State) (off : Int) : Word := BitVec.ofInt 32 (s.pc.toNat + off)

/-- Where a control-flow instruction that takes effect goes (R25, R196 to R201, R210, R211); `none` for a branch whose
condition is false and for every other instruction. -/
def takenTarget (s : State) : Instr → Option Word
  | .beq a b off  => if s.readReg a = s.readReg b then some (pcPlus s off.toInt) else none
  | .bne a b off  => if s.readReg a ≠ s.readReg b then some (pcPlus s off.toInt) else none
  | .blt a b off  => if (s.readReg a).toInt < (s.readReg b).toInt then some (pcPlus s off.toInt) else none
  | .bge a b off  => if (s.readReg b).toInt ≤ (s.readReg a).toInt then some (pcPlus s off.toInt) else none
  | .bltu a b off => if (s.readReg a).toNat < (s.readReg b).toNat then some (pcPlus s off.toInt) else none
  | .bgeu a b off => if (s.readReg b).toNat ≤ (s.readReg a).toNat then some (pcPlus s off.toInt) else none
  | .jal _ off    => some (pcPlus s off.toInt)
  | .jalr _ a imm =>
    some (BitVec.ofNat 32 ((BitVec.ofInt 32 ((s.readReg a).toNat + imm.toInt)).toNat / 2 * 2))
  | .add _ _ _    => none
  | .sub _ _ _    => none
  | .sll _ _ _    => none
  | .slt _ _ _    => none
  | .sltu _ _ _   => none
  | .xor _ _ _    => none
  | .srl _ _ _    => none
  | .sra _ _ _    => none
  | .or _ _ _     => none
  | .and _ _ _    => none
  | .addi _ _ _   => none
  | .slti _ _ _   => none
  | .sltiu _ _ _  => none
  | .xori _ _ _   => none
  | .ori _ _ _    => none
  | .andi _ _ _   => none
  | .slli _ _ _   => none
  | .srli _ _ _   => none
  | .srai _ _ _   => none
  | .lb _ _ _     => none
  | .lh _ _ _     => none
  | .lw _ _ _     => none
  | .lbu _ _ _    => none
  | .lhu _ _ _    => none
  | .sb _ _ _     => none
  | .sh _ _ _     => none
  | .sw _ _ _     => none
  | .lui _ _      => none
  | .auipc _ _    => none

/-- The instruction a `Running` Hart is about to execute: the word its fetch answers, decoded. -/
abbrev Executes (s : State) (i : Instr) : Prop := ∃ w, fetch s = .ok w ∧ decode w = .ok i

/-! ## The invariant of a Hart -/

/-- What holds of every Hart between two steps: the parameters meet R9; the pc is a multiple of 4 and at most ARENA_LEN
(R26); the fault record is absent exactly while `Running` and holds the Hart's own pc (R31); memory is canonical and
lists plain memory of the arena alone (R32); the device arrays have their blocks' lengths (R33). -/
structure State.Inv (s : State) : Prop where
  params_ok    : s.params.Ok
  pc_aligned   : s.pc.toNat % 4 = 0
  pc_in_arena  : s.pc.toNat ≤ s.params.arenaLen
  fault_absent : s.fault = none ↔ s.run = .running
  fault_pc     : ∀ r, s.fault = some r → r.pc = s.pc
  mem_wf       : Memory.wf s.mem
  mem_plain    : ∀ c ∈ s.mem, InArena s.params c.1 1 ∧ OutsideBlocks s.params c.1 1
  sensor_len   : s.sensor.length = s.params.ioMap.sensor.len
  act_len      : s.act.length = s.params.ioMap.act.len

end Sys2Proof.Machine
end

