-- ==== Sys2Proof/Certificates/Slice0/Obligations.lean ====
section
/-! DEFINITION. The statements for the provers, each from the numbered rules of spec/. "D<n>" is a decision of
92_eei_decisions.md (the spec's own choice), "G<n>" what 93_implementation_defined.md lists as supplied from general
knowledge, "log <n>" an entry of notes/assumptions. The hypotheses `s.params.Ok`, `Memory.wf s.mem` and the length of a
device array are parts of `State.Inv`, which `Obligations.EveryStepKeepsTheInvariant` states of every step. -/

open Sys2Proof Sys2Proof.Machine

/-! ## Encoding -/

/-- Decoding the encoding of a well-formed instruction gives it back, every operand at every value (R91 to R105; the layouts
are G1 to G3). -/
def Obligations.DecodeOfEncodeIsTheInstruction : Prop :=
  ∀ i : Instr, i.WellFormed → decode (encode i) = .ok i

/-- A word that decodes is the encoding of what it decodes to: no bit of a supported word is ignored, so each instruction has
one word (R104, R105). -/
def Obligations.EncodeOfDecodeIsTheWord : Prop :=
  ∀ (w : Word) (i : Instr), decode w = .ok i → encode i = w

/-- The decoder yields well-formed instructions only: offsets of branches and of JAL are even (R100, R102). -/
def Obligations.DecodedInstructionsAreWellFormed : Prop :=
  ∀ (w : Word) (i : Instr), decode w = .ok i → i.WellFormed

/-- A word `w` is the instruction of a row of the opcode map exactly when `w & mask = match` (R105). -/
def Obligations.OpcodeMapSelectsTheDecodedInstruction : Prop :=
  ∀ row ∈ opcodeMap, ∀ w : Word, (∃ i, decode w = .ok i ∧ i.mnemonic = row.mnemonic) ↔ w &&& row.mask = row.matchBits

/-- The map's rows are pairwise exclusive: no word is selected by two of them (R105, derived there from R104). -/
def Obligations.OpcodeMapRowsAreExclusive : Prop :=
  opcodeMap.length = 37 ∧ opcodeMap.Pairwise (fun r q => ∀ w : Word, ¬(w &&& r.mask = r.matchBits ∧ w &&& q.mask = q.matchBits))

/-- Words written out in the spec's examples decode to the instructions they stand for, one of each family (R131, R151, R173,
R188, R197, R210, R220). -/
def Obligations.ExampleWordsDecode : Prop :=
  decode 0x002081B3 = .ok (.add 3 1 2) ∧
  decode 0xFFD28293 = .ok (.addi 5 5 (-3)) ∧
  decode 0xFFC0A183 = .ok (.lw 3 1 (-4)) ∧
  decode 0xFE20AC23 = .ok (.sw 1 2 (-8)) ∧
  decode 0xFE209EE3 = .ok (.bne 1 2 (-4)) ∧
  decode 0xFF9FF06F = .ok (.jal 0 (-8)) ∧
  decode 0x123451B7 = .ok (.lui 3 0x12345)

/-- Every word of the unsupported opcodes is refused under its class (R230 to R238). That these families are refused at all is
D2 (M, A, F, D, C, V, RV64) and D3 (FENCE, SYSTEM), the classes are D16; log 8 has the three. In order: a word with `inst[1:0]`
other than `11`; FENCE and SYSTEM; atomics; floating point; the RV64 opcodes; the M extension; and every other word whose opcode
is none of the nine supported ones and none of those named with a class of their own: the custom opcodes, the vector opcode, the
reserved opcodes and the prefixes of longer encodings (R237). -/
def Obligations.UnsupportedFamiliesAreRefusedByClass : Prop :=
  (∀ w : Word, w.extractLsb' 0 2 ≠ 0b11#2 → decode w = .error (.illegal .c)) ∧
  (∀ hi : BitVec 25,
    decode (hi ++ 0b0001111#7) = .error (.illegal .fence) ∧
    decode (hi ++ 0b1110011#7) = .error (.illegal .zicsrSystem) ∧
    decode (hi ++ 0b0101111#7) = .error (.illegal .a) ∧
    (∀ op ∈ [0b0000111#7, 0b0100111#7, 0b1000011#7, 0b1000111#7, 0b1001011#7, 0b1001111#7, 0b1010011#7],
      decode (hi ++ op) = .error (.illegal .fd)) ∧
    decode (hi ++ 0b0011011#7) = .error (.illegal .unknown) ∧
    decode (hi ++ 0b0111011#7) = .error (.illegal .unknown)) ∧
  (∀ mid : BitVec 18, decode (0b0000001#7 ++ mid ++ 0b0110011#7) = .error (.illegal .m)) ∧
  (∀ w : Word, w.extractLsb' 0 2 = 0b11#2 →
    w.extractLsb' 0 7 ∉ [0b0110111#7, 0b0010111#7, 0b1101111#7, 0b1100111#7, 0b1100011#7, 0b0000011#7, 0b0100011#7,
      0b0010011#7, 0b0110011#7] →
    w.extractLsb' 0 7 ∉ [0b0001111#7, 0b1110011#7, 0b0101111#7, 0b0000111#7, 0b0100111#7, 0b1000011#7, 0b1000111#7,
      0b1001011#7, 0b1001111#7, 0b1010011#7] →
    decode w = .error (.illegal .unknown))

/-- The unused function codes inside the supported opcodes are refused as `Unknown` (R141, R176, R189, R204, R211, R233, R237; the
class is R238, D16, log 8): of loads, stores, branches, JALR and OP; those of OP-IMM are in `Obligations.ShiftImmediateResults`. -/
def Obligations.UnusedFunctionCodesAreRefused : Prop :=
  ∀ (f7 : BitVec 7) (rs2 rs1 rd : RegIdx) (imm : BitVec 12) (f3 : BitVec 3),
    (f3 ∈ [0b011#3, 0b110#3, 0b111#3] →
      decode (imm ++ rs1 ++ f3 ++ rd ++ 0b0000011#7) = .error (.illegal .unknown)) ∧
    (f3 ∉ [0b000#3, 0b001#3, 0b010#3] →
      decode (f7 ++ rs2 ++ rs1 ++ f3 ++ rd ++ 0b0100011#7) = .error (.illegal .unknown)) ∧
    (f3 ∈ [0b010#3, 0b011#3] →
      decode (f7 ++ rs2 ++ rs1 ++ f3 ++ rd ++ 0b1100011#7) = .error (.illegal .unknown)) ∧
    (f3 ≠ 0b000#3 → decode (imm ++ rs1 ++ f3 ++ rd ++ 0b1100111#7) = .error (.illegal .unknown)) ∧
    (f7 ≠ 0b0000000#7 → f7 ≠ 0b0000001#7 → (f7, f3) ∉ [(0b0100000#7, 0b000#3), (0b0100000#7, 0b101#3)] →
      decode (f7 ++ rs2 ++ rs1 ++ f3 ++ rd ++ 0b0110011#7) = .error (.illegal .unknown))

/-! ## The step -/

/-- When the four bytes at the pc decode to an instruction, the step of a `Running` Hart at an aligned pc in plain memory is
that instruction's execution, and nothing is added around it (R36, R55; the order of the checks is D10). -/
def Obligations.StepExecutesTheDecodedInstruction : Prop :=
  ∀ (s : State) (i : Instr), s.run = .running → s.pc.toNat % 4 = 0 → InArena s.params s.pc.toNat 4 →
    OutsideBlocks s.params s.pc.toNat 4 →
    decodeBytes [Memory.read s.mem s.pc.toNat, Memory.read s.mem (s.pc.toNat + 1), Memory.read s.mem (s.pc.toNat + 2),
      Memory.read s.mem (s.pc.toNat + 3)] = .ok (i, []) →
    step s = exec i s

/-- A fetched word that no row of the opcode map matches raises `IllegalInstruction(inst)`, and the state is otherwise that
before the fetch (R106, R255, R258). -/
def Obligations.UnmatchedWordRaisesIllegalInstruction : Prop :=
  ∀ (s : State) (w : Word), s.run = .running → fetch s = .ok w →
    (∀ row ∈ opcodeMap, w &&& row.mask ≠ row.matchBits) → step s = .next (faultedState s .illegalInstruction w)

/-- The fetch's three checks in their order (R55; the order is D10; that the reserved blocks D to F count as device ranges is D9;
log 6, log 8; the record is D11), the little-endian word at the pc when all pass, and what
the fetch raises is the fault of the step (R36, R251 to R253, R258). -/
def Obligations.FetchChecksAlignmentBoundsDevices : Prop :=
  ∀ s : State,
    (s.pc.toNat % 4 ≠ 0 → fetch s = .error ⟨.misalignedFetch, s.pc⟩) ∧
    (s.pc.toNat % 4 = 0 → ¬InArena s.params s.pc.toNat 4 → fetch s = .error ⟨.outOfBounds, s.pc⟩) ∧
    (s.pc.toNat % 4 = 0 → InArena s.params s.pc.toNat 4 → ¬OutsideBlocks s.params s.pc.toNat 4 →
      fetch s = .error ⟨.executeFromDevice, s.pc⟩) ∧
    (s.pc.toNat % 4 = 0 → InArena s.params s.pc.toNat 4 → OutsideBlocks s.params s.pc.toNat 4 →
      fetch s = .ok (Memory.read s.mem (s.pc.toNat + 3) ++ Memory.read s.mem (s.pc.toNat + 2) ++
        Memory.read s.mem (s.pc.toNat + 1) ++ Memory.read s.mem s.pc.toNat)) ∧
    (∀ r, s.run = .running → fetch s = .error r → step s = .next (faultedState s r.kind r.info))

/-- The two run states (R30): a Hart starts `Running` at the entry point; a `Running` Hart's step always answers a next state;
a `Faulted` Hart takes no step and its run call returns the stored record and changes nothing, so no step leads out of
`Faulted`. -/
def Obligations.RunningStepsAndFaultedStays : Prop :=
  (∀ (p : Params) (image : Memory) (entry : Word),
    (State.construct p image entry).run = .running ∧ (State.construct p image entry).pc = entry) ∧
  (∀ s : State, s.run = .running → ∃ t, step s = .next t) ∧
  (∀ s : State, s.run = .faulted → ∀ t, step s ≠ .next t) ∧
  (∀ (s : State) (budget : Word), s.run = .faulted → runCall budget s = (s, .fault s.fault))

/-- A faulting step changes the run state and the fault record and nothing else, and the record holds the unchanged pc
(R37, R258): registers, pc, memory, log, sensor and actuator bytes are exactly as before. -/
def Obligations.FaultingStepChangesOnlyRunAndFault : Prop :=
  ∀ s t : State, step s = .next t → t.run = .faulted → ∃ kind info, t = faultedState s kind info

/-- While an instruction executes it raises only the kinds the table of R250 gives it (the record is D11; no kind for
a misaligned data access is D7, log 7, and none for a trapping range is D9, log 6), and the record names the pc. For LB, LBU and SB the table leaves `MisalignedDeviceAccess` out because the blocks are disjoint (R9). -/
def Obligations.InstructionRaisesOnlyItsKinds : Prop :=
  ∀ (i : Instr) (s t : State), s.params.Ok → s.run = .running → exec i s = .next t → t.run = .faulted →
    ∃ kind ∈ mayRaise i, ∃ info, t = faultedState s kind info

/-- Advance of the pc (R25; JALR's cleared bit 0 is D17): a faulting step leaves it; a completing one sets it to the target of a control-flow instruction
that takes effect, and to pc + 4 otherwise; and N completing steps of instructions that take no transfer advance it by
exactly 4 N. -/
def Obligations.PcAdvancesByFourOrToTheTarget : Prop :=
  (∀ (s t : State) (i : Instr), s.run = .running → Executes s i → step s = .next t →
    (t.run = .faulted → t.pc = s.pc) ∧ (t.run = .running → t.pc = (takenTarget s i).getD (s.pc + 4))) ∧
  (∀ (n : Nat) (s : State), (runSteps n s).run = .running →
    (∀ k < n, ∃ i, Executes (runSteps k s) i ∧ takenTarget (runSteps k s) i = none) →
    (runSteps n s).pc = s.pc + BitVec.ofNat 32 (4 * n))

/-- No step of any kind changes the parameters (R57: "fixed at Hart construction time and immutable thereafter") or the
sensor snapshot (R33: "only the host writes it"). -/
def Obligations.StepNeverChangesParametersOrSensor : Prop :=
  ∀ s t : State, step s = .next t → t.params = s.params ∧ t.sensor = s.sensor

/-- The log only grows, by at most four bytes a step (R33, R59). -/
def Obligations.LogIsAppendOnly : Prop :=
  ∀ s t : State, step s = .next t → ∃ bytes : List Byte, bytes.length ≤ 4 ∧ t.log = s.log ++ bytes

/-- The bytes of `mem` under a device block are written by no instruction (R32). -/
def Obligations.MemoryUnderBlocksIsNeverWritten : Prop :=
  ∀ (i : Instr) (s t : State), Memory.wf s.mem → exec i s = .next t →
    ∀ e ∈ s.params.ioMap.blocks, ∀ a, InBlock e.2 a → Memory.read t.mem a = Memory.read s.mem a

/-- An instruction writes no register but the one its `rd` field names: no hidden side effect (R23); and one whose `rd` is
`x0` writes none (R22). -/
def Obligations.OnlyTheDestinationRegisterChanges : Prop :=
  ∀ (i : Instr) (s t : State), exec i s = .next t →
    (∀ r, dest i ≠ some r → t.readReg r = s.readReg r) ∧ (dest i = some 0#5 → SameRegs s t)

/-- The Hart cannot observe the log or the host's drain of it (R298; unbounded log: D13): with any bytes put before the log,
every step does the same and leaves the same bytes before it. -/
def Obligations.StepCannotObserveTheLog : Prop :=
  ∀ (s : State) (bytes : List Byte),
    step (s.withLog (bytes ++ s.log)) =
      match step s with
      | .next t    => .next (t.withLog (bytes ++ t.log))
      | .fault f   => .fault f
      | .refused r => .refused r

/-! ## The invariant -/

/-- Every step from a state that meets the invariant answers only states that meet it (R20 to R35; R9, D6, D8). -/
def Obligations.EveryStepKeepsTheInvariant : Prop :=
  ∀ s t : State, s.Inv → step s = .next t → t.Inv

/-- Every sequence of ticks keeps the invariant: the host's snapshots and budgets are free (R298, R300). -/
def Obligations.EveryTickSequenceKeepsTheInvariant : Prop :=
  ∀ (inputs : List (List Byte × Word)) (s t : State), s.Inv → ticks inputs s = some t → t.Inv

/-- A Hart constructed under the launch predicate meets the invariant (R290, R292). -/
def Obligations.ConstructionMeetsTheInvariant : Prop :=
  ∀ (p : Params) (image : Memory) (entry : Word), LaunchOk p image entry → (State.construct p image entry).Inv

/-- `State.reset` meets the invariant. Its parameters, empty image and entry address are the model's choice (log 2). -/
def Obligations.ResetMeetsTheInvariant : Prop := State.reset.Inv

/-- The state after construction (R35, R290): registers 0 (D5), pc the entry address, `Running`, no fault, memory the image,
the log empty (D13), the sensor and actuator bytes 0 (D14). -/
def Obligations.ConstructionGivesTheResetValues : Prop :=
  ∀ (p : Params) (image : Memory) (entry : Word),
    (∀ r, (State.construct p image entry).readReg r = 0#32) ∧
    (State.construct p image entry).pc = entry ∧
    (State.construct p image entry).run = .running ∧
    (State.construct p image entry).fault = none ∧
    (∀ a, Memory.read (State.construct p image entry).mem a = Memory.read image a) ∧
    (State.construct p image entry).log = [] ∧
    (State.construct p image entry).sensor.length = p.ioMap.sensor.len ∧
    (State.construct p image entry).act.length = p.ioMap.act.len ∧
    (∀ k, byteAt (State.construct p image entry).sensor k = 0#8 ∧ byteAt (State.construct p image entry).act k = 0#8)

/-- No instruction takes memory out of its canonical form, from any state. The spec gives memory as an array of bytes (R32) and
no list: the form (addresses strictly rising, no zero byte listed) is the model's own choice of representation, log 11 (DESIGN
CHOICE), which makes equal memories equal data. -/
def Obligations.MemoryStaysCanonical : Prop :=
  ∀ (i : Instr) (s t : State), Memory.wf s.mem → exec i s = .next t → Memory.wf t.mem

/-! ## Registers -/

/-- Register 0 (R22): it reads as 0, a write to it has no effect; every other register reads back what was written, and a
write to one leaves the others. An instruction whose `rd` is 0 does everything else that the same instruction does with any
other `rd` (memory access, faults, the pc), and writes no register. -/
def Obligations.RegisterZeroIsHardWired : Prop :=
  (∀ (s : State) (v : Word),
    s.readReg 0#5 = 0#32 ∧ s.writeReg 0#5 v = s ∧
    (∀ r : RegIdx, r ≠ 0#5 → (s.writeReg r v).readReg r = v) ∧
    (∀ r q : RegIdx, q ≠ r → (s.writeReg r v).readReg q = s.readReg q)) ∧
  (∀ (i : Instr) (r : RegIdx) (s t : State), exec (withDest r i) s = .next t →
    exec (withDest 0#5 i) s = .next { t with regs := s.regs })

/-! ## Register-register instructions -/

/-- ADD and SUB (R131, R132): from their words, the sum and the difference modulo 2^32 in `rd`, pc + 4, nothing else. -/
def Obligations.AddSubResults : Prop :=
  ∀ (s : State) (rd rs1 rs2 : RegIdx),
    (decode (0b0000000#7 ++ rs2 ++ rs1 ++ 0b000#3 ++ rd ++ 0b0110011#7) = .ok (.add rd rs1 rs2) ∧
     ∃ t v, exec (.add rd rs1 rs2) s = .next t ∧ WritesRegAndAdvances s t rd v ∧
       v.toNat = ((s.readReg rs1).toNat + (s.readReg rs2).toNat) % 2 ^ 32) ∧
    (decode (0b0100000#7 ++ rs2 ++ rs1 ++ 0b000#3 ++ rd ++ 0b0110011#7) = .ok (.sub rd rs1 rs2) ∧
     ∃ t v, exec (.sub rd rs1 rs2) s = .next t ∧ WritesRegAndAdvances s t rd v ∧
       (v.toNat : Int) = ((s.readReg rs1).toNat - (s.readReg rs2).toNat : Int) % 2 ^ 32)

/-- SLL, SRL, SRA (R133, R137, R138): the amount is `x[rs2]` modulo 32; the left shift multiplies modulo 2^32, the logical
right shift divides the unsigned value, the arithmetic one gives the floor of the signed quotient. -/
def Obligations.RegisterShiftResults : Prop :=
  ∀ (s : State) (rd rs1 rs2 : RegIdx),
    (decode (0b0000000#7 ++ rs2 ++ rs1 ++ 0b001#3 ++ rd ++ 0b0110011#7) = .ok (.sll rd rs1 rs2) ∧
     ∃ t v, exec (.sll rd rs1 rs2) s = .next t ∧ WritesRegAndAdvances s t rd v ∧
       v.toNat = (s.readReg rs1).toNat * 2 ^ ((s.readReg rs2).toNat % 32) % 2 ^ 32) ∧
    (decode (0b0000000#7 ++ rs2 ++ rs1 ++ 0b101#3 ++ rd ++ 0b0110011#7) = .ok (.srl rd rs1 rs2) ∧
     ∃ t v, exec (.srl rd rs1 rs2) s = .next t ∧ WritesRegAndAdvances s t rd v ∧
       v.toNat = (s.readReg rs1).toNat / 2 ^ ((s.readReg rs2).toNat % 32)) ∧
    (decode (0b0100000#7 ++ rs2 ++ rs1 ++ 0b101#3 ++ rd ++ 0b0110011#7) = .ok (.sra rd rs1 rs2) ∧
     ∃ t v, exec (.sra rd rs1 rs2) s = .next t ∧ WritesRegAndAdvances s t rd v ∧
       v.toInt = (s.readReg rs1).toInt / 2 ^ ((s.readReg rs2).toNat % 32))

/-- SLT and SLTU (R134, R135): exactly 1 or 0, by the signed and by the unsigned comparison. -/
def Obligations.CompareResults : Prop :=
  ∀ (s : State) (rd rs1 rs2 : RegIdx),
    (decode (0b0000000#7 ++ rs2 ++ rs1 ++ 0b010#3 ++ rd ++ 0b0110011#7) = .ok (.slt rd rs1 rs2) ∧
     ∃ t, exec (.slt rd rs1 rs2) s = .next t ∧
       WritesRegAndAdvances s t rd (if (s.readReg rs1).toInt < (s.readReg rs2).toInt then 1#32 else 0#32)) ∧
    (decode (0b0000000#7 ++ rs2 ++ rs1 ++ 0b011#3 ++ rd ++ 0b0110011#7) = .ok (.sltu rd rs1 rs2) ∧
     ∃ t, exec (.sltu rd rs1 rs2) s = .next t ∧
       WritesRegAndAdvances s t rd (if (s.readReg rs1).toNat < (s.readReg rs2).toNat then 1#32 else 0#32))

/-- XOR, OR, AND (R136, R139, R140), bit by bit. -/
def Obligations.LogicResults : Prop :=
  ∀ (s : State) (rd rs1 rs2 : RegIdx),
    (decode (0b0000000#7 ++ rs2 ++ rs1 ++ 0b100#3 ++ rd ++ 0b0110011#7) = .ok (.xor rd rs1 rs2) ∧
     ∃ t v, exec (.xor rd rs1 rs2) s = .next t ∧ WritesRegAndAdvances s t rd v ∧
       ∀ k < 32, v.getLsbD k = ((s.readReg rs1).getLsbD k != (s.readReg rs2).getLsbD k)) ∧
    (decode (0b0000000#7 ++ rs2 ++ rs1 ++ 0b110#3 ++ rd ++ 0b0110011#7) = .ok (.or rd rs1 rs2) ∧
     ∃ t v, exec (.or rd rs1 rs2) s = .next t ∧ WritesRegAndAdvances s t rd v ∧
       ∀ k < 32, v.getLsbD k = ((s.readReg rs1).getLsbD k || (s.readReg rs2).getLsbD k)) ∧
    (decode (0b0000000#7 ++ rs2 ++ rs1 ++ 0b111#3 ++ rd ++ 0b0110011#7) = .ok (.and rd rs1 rs2) ∧
     ∃ t v, exec (.and rd rs1 rs2) s = .next t ∧ WritesRegAndAdvances s t rd v ∧
       ∀ k < 32, v.getLsbD k = ((s.readReg rs1).getLsbD k && (s.readReg rs2).getLsbD k))

/-! ## Register-immediate instructions -/

/-- ADDI (R151): the sum with the signed immediate, modulo 2^32. -/
def Obligations.AddiResult : Prop :=
  ∀ (s : State) (rd rs1 : RegIdx) (imm : BitVec 12),
    decode (imm ++ rs1 ++ 0b000#3 ++ rd ++ 0b0010011#7) = .ok (.addi rd rs1 imm) ∧
    ∃ t v, exec (.addi rd rs1 imm) s = .next t ∧ WritesRegAndAdvances s t rd v ∧
      (v.toNat : Int) = ((s.readReg rs1).toNat + imm.toInt) % 2 ^ 32

/-- SLTI and SLTIU (R152, R153): SLTIU sign-extends the immediate first and then compares unsigned. -/
def Obligations.CompareImmediateResults : Prop :=
  ∀ (s : State) (rd rs1 : RegIdx) (imm : BitVec 12),
    (decode (imm ++ rs1 ++ 0b010#3 ++ rd ++ 0b0010011#7) = .ok (.slti rd rs1 imm) ∧
     ∃ t, exec (.slti rd rs1 imm) s = .next t ∧
       WritesRegAndAdvances s t rd (if (s.readReg rs1).toInt < imm.toInt then 1#32 else 0#32)) ∧
    (decode (imm ++ rs1 ++ 0b011#3 ++ rd ++ 0b0010011#7) = .ok (.sltiu rd rs1 imm) ∧
     ∃ t, exec (.sltiu rd rs1 imm) s = .next t ∧
       WritesRegAndAdvances s t rd (if ((s.readReg rs1).toNat : Int) < imm.toInt % 2 ^ 32 then 1#32 else 0#32))

/-- XORI, ORI, ANDI (R154 to R156), bit by bit, with the immediate's bit 11 in every higher place. -/
def Obligations.LogicImmediateResults : Prop :=
  ∀ (s : State) (rd rs1 : RegIdx) (imm : BitVec 12),
    (decode (imm ++ rs1 ++ 0b100#3 ++ rd ++ 0b0010011#7) = .ok (.xori rd rs1 imm) ∧
     ∃ t v, exec (.xori rd rs1 imm) s = .next t ∧ WritesRegAndAdvances s t rd v ∧
       ∀ k < 32, v.getLsbD k = ((s.readReg rs1).getLsbD k != imm.getLsbD (min k 11))) ∧
    (decode (imm ++ rs1 ++ 0b110#3 ++ rd ++ 0b0010011#7) = .ok (.ori rd rs1 imm) ∧
     ∃ t v, exec (.ori rd rs1 imm) s = .next t ∧ WritesRegAndAdvances s t rd v ∧
       ∀ k < 32, v.getLsbD k = ((s.readReg rs1).getLsbD k || imm.getLsbD (min k 11))) ∧
    (decode (imm ++ rs1 ++ 0b111#3 ++ rd ++ 0b0010011#7) = .ok (.andi rd rs1 imm) ∧
     ∃ t v, exec (.andi rd rs1 imm) s = .next t ∧ WritesRegAndAdvances s t rd v ∧
       ∀ k < 32, v.getLsbD k = ((s.readReg rs1).getLsbD k && imm.getLsbD (min k 11)))

/-- SLLI, SRLI, SRAI (R157 to R159), and the words in their places whose upper seven bits are no function code: the decoder
refuses them under the class `Unknown` (R238; that class is D16, log 8), and the step that fetches one raises `IllegalInstruction(inst)`. -/
def Obligations.ShiftImmediateResults : Prop :=
  ∀ (s : State) (rd rs1 : RegIdx) (shamt : BitVec 5),
    (decode (0b0000000#7 ++ shamt ++ rs1 ++ 0b001#3 ++ rd ++ 0b0010011#7) = .ok (.slli rd rs1 shamt) ∧
     ∃ t v, exec (.slli rd rs1 shamt) s = .next t ∧ WritesRegAndAdvances s t rd v ∧
       v.toNat = (s.readReg rs1).toNat * 2 ^ shamt.toNat % 2 ^ 32) ∧
    (decode (0b0000000#7 ++ shamt ++ rs1 ++ 0b101#3 ++ rd ++ 0b0010011#7) = .ok (.srli rd rs1 shamt) ∧
     ∃ t v, exec (.srli rd rs1 shamt) s = .next t ∧ WritesRegAndAdvances s t rd v ∧
       v.toNat = (s.readReg rs1).toNat / 2 ^ shamt.toNat) ∧
    (decode (0b0100000#7 ++ shamt ++ rs1 ++ 0b101#3 ++ rd ++ 0b0010011#7) = .ok (.srai rd rs1 shamt) ∧
     ∃ t v, exec (.srai rd rs1 shamt) s = .next t ∧ WritesRegAndAdvances s t rd v ∧
       v.toInt = (s.readReg rs1).toInt / 2 ^ shamt.toNat) ∧
    (∀ (f7 : BitVec 7) (w : Word), w = f7 ++ shamt ++ rs1 ++ 0b001#3 ++ rd ++ 0b0010011#7 → f7 ≠ 0b0000000#7 →
      decode w = .error (.illegal .unknown) ∧
      (s.run = .running → fetch s = .ok w → step s = .next (faultedState s .illegalInstruction w))) ∧
    (∀ (f7 : BitVec 7) (w : Word), w = f7 ++ shamt ++ rs1 ++ 0b101#3 ++ rd ++ 0b0010011#7 → f7 ≠ 0b0000000#7 →
      f7 ≠ 0b0100000#7 →
      decode w = .error (.illegal .unknown) ∧
      (s.run = .running → fetch s = .ok w → step s = .next (faultedState s .illegalInstruction w)))

/-! ## Upper-immediate instructions -/

/-- LUI and AUIPC (R220, R221): twenty bits above twelve zeros, and their sum with this instruction's own pc. -/
def Obligations.UpperImmediateResults : Prop :=
  ∀ (s : State) (rd : RegIdx) (imm20 : BitVec 20),
    (decode (imm20 ++ rd ++ 0b0110111#7) = .ok (.lui rd imm20) ∧
     ∃ t v, exec (.lui rd imm20) s = .next t ∧ WritesRegAndAdvances s t rd v ∧ v.toNat = imm20.toNat * 4096) ∧
    (decode (imm20 ++ rd ++ 0b0010111#7) = .ok (.auipc rd imm20) ∧
     ∃ t v, exec (.auipc rd imm20) s = .next t ∧ WritesRegAndAdvances s t rd v ∧
       v.toNat = (s.pc.toNat + imm20.toNat * 4096) % 2 ^ 32)

/-- `li rd, imm` (R111, R222): LUI with `hi20` and then ADDI with `lo12` leave any 32-bit constant in `rd`. -/
def Obligations.LoadImmediateBuildsAnyConstant : Prop :=
  ∀ (s : State) (rd : RegIdx) (v : Word), rd ≠ 0#5 →
    expand (.li rd v) = [.lui rd (hi20 v), .addi rd rd (lo12 v)] ∧
    ∃ t u, exec (.lui rd (hi20 v)) s = .next t ∧ exec (.addi rd rd (lo12 v)) t = .next u ∧ u.readReg rd = v ∧
      (∀ r, r ≠ rd → u.readReg r = s.readReg r) ∧ u.pc = s.pc + 8

/-! ## Loads -/

/-- LB and LBU (R171, R174) on any byte of the arena, device or plain: the byte sign- or zero-extended, pc + 4, nothing else.
What a device byte reads as is R59 to R62 (an actuator byte as written, D12, log 8). That no range traps is D9 (log 6). -/
def Obligations.ByteLoadsComplete : Prop :=
  ∀ (s : State) (rd rs1 : RegIdx) (imm : BitVec 12), s.params.Ok →
    InArena s.params (effectiveAddress s rs1 imm).toNat 1 →
    (∃ t v, exec (.lb rd rs1 imm) s = .next t ∧ WritesRegAndAdvances s t rd v ∧
      v.toInt = (guestByte s (effectiveAddress s rs1 imm).toNat).toInt) ∧
    (∃ t v, exec (.lbu rd rs1 imm) s = .next t ∧ WritesRegAndAdvances s t rd v ∧
      v.toNat = (guestByte s (effectiveAddress s rs1 imm).toNat).toNat)

/-- LH and LHU (R172, R175) at any address, odd ones too (D7, log 7), that does not straddle: two bytes, little-endian (D15). No
range traps (D9, log 6). -/
def Obligations.HalfwordLoadsComplete : Prop :=
  ∀ (s : State) (rd rs1 : RegIdx) (imm : BitVec 12), s.params.Ok →
    InArena s.params (effectiveAddress s rs1 imm).toNat 2 → ¬Straddles s.params (effectiveAddress s rs1 imm).toNat 2 →
    (∃ t v, exec (.lh rd rs1 imm) s = .next t ∧ WritesRegAndAdvances s t rd v ∧
      v.toInt = (guestByte s ((effectiveAddress s rs1 imm).toNat + 1) ++
        guestByte s (effectiveAddress s rs1 imm).toNat).toInt) ∧
    (∃ t v, exec (.lhu rd rs1 imm) s = .next t ∧ WritesRegAndAdvances s t rd v ∧
      v.toNat = (guestByte s ((effectiveAddress s rs1 imm).toNat + 1) ++
        guestByte s (effectiveAddress s rs1 imm).toNat).toNat)

/-- LW (R173) at any address (D7, log 7) that does not straddle: four bytes, little-endian (D15). No range traps (D9, log 6). -/
def Obligations.WordLoadCompletes : Prop :=
  ∀ (s : State) (rd rs1 : RegIdx) (imm : BitVec 12), s.params.Ok →
    InArena s.params (effectiveAddress s rs1 imm).toNat 4 → ¬Straddles s.params (effectiveAddress s rs1 imm).toNat 4 →
    ∃ t, exec (.lw rd rs1 imm) s = .next t ∧
      WritesRegAndAdvances s t rd (guestByte s ((effectiveAddress s rs1 imm).toNat + 3) ++
        guestByte s ((effectiveAddress s rs1 imm).toNat + 2) ++ guestByte s ((effectiveAddress s rs1 imm).toNat + 1) ++
        guestByte s (effectiveAddress s rs1 imm).toNat)

/-- Where loads fault (R170, R252, R257; the order is D10, the record D11): outside the arena `OutOfBounds`, on a straddle in bounds
`MisalignedDeviceAccess`, with the effective address recorded and nothing else changed. A load into `x0` faults too. -/
def Obligations.LoadsFault : Prop :=
  ∀ (s : State) (rd rs1 : RegIdx) (imm : BitVec 12),
    let ea := effectiveAddress s rs1 imm
    (∀ i ∈ [Instr.lb rd rs1 imm, .lbu rd rs1 imm], ¬InArena s.params ea.toNat 1 →
      exec i s = .next (faultedState s .outOfBounds ea)) ∧
    (∀ i ∈ [Instr.lh rd rs1 imm, .lhu rd rs1 imm],
      (¬InArena s.params ea.toNat 2 → exec i s = .next (faultedState s .outOfBounds ea)) ∧
      (InArena s.params ea.toNat 2 → Straddles s.params ea.toNat 2 →
        exec i s = .next (faultedState s .misalignedDeviceAccess ea))) ∧
    (¬InArena s.params ea.toNat 4 → exec (.lw rd rs1 imm) s = .next (faultedState s .outOfBounds ea)) ∧
    (InArena s.params ea.toNat 4 → Straddles s.params ea.toNat 4 →
      exec (.lw rd rs1 imm) s = .next (faultedState s .misalignedDeviceAccess ea))

/-! ## Stores -/

/-- SB, SH, SW (R186 to R188) to plain memory, at any address (D7, log 7; no range traps: D9, log 6): the low bytes of `x[rs2]`
from `ea` on, least significant first (D15), every byte outside as before, no register written, pc + 4, nothing else. -/
def Obligations.StoresToPlainMemoryComplete : Prop :=
  ∀ (s : State) (rs1 rs2 : RegIdx) (imm : BitVec 12), Memory.wf s.mem →
    ∀ e ∈ [(Instr.sb rs1 rs2 imm, 1), (Instr.sh rs1 rs2 imm, 2), (Instr.sw rs1 rs2 imm, 4)],
      InArena s.params (effectiveAddress s rs1 imm).toNat e.2 →
      OutsideBlocks s.params (effectiveAddress s rs1 imm).toNat e.2 →
      ∃ t, exec e.1 s = .next t ∧
        (∀ k < e.2, Memory.read t.mem ((effectiveAddress s rs1 imm).toNat + k)
          = (s.readReg rs2).extractLsb' (8 * k) 8) ∧
        (∀ a, ¬((effectiveAddress s rs1 imm).toNat ≤ a ∧ a < (effectiveAddress s rs1 imm).toNat + e.2) →
          Memory.read t.mem a = Memory.read s.mem a) ∧
        t.log = s.log ∧ t.sensor = s.sensor ∧ t.act = s.act ∧ SameRegs s t ∧ SameControl s t ∧ t.pc = s.pc + 4

/-- SB, SH, SW wholly inside the log block append their bytes, least significant first, and nothing else (R59; the order of
the bytes is D15). -/
def Obligations.StoresToTheLogAppend : Prop :=
  ∀ (s : State) (rs1 rs2 : RegIdx) (imm : BitVec 12), s.params.Ok →
    ∀ e ∈ [(Instr.sb rs1 rs2 imm, 1), (Instr.sh rs1 rs2 imm, 2), (Instr.sw rs1 rs2 imm, 4)],
      WithinBlock s.params.ioMap.log (effectiveAddress s rs1 imm).toNat e.2 →
      ∃ t, exec e.1 s = .next t ∧
        t.log = s.log ++ (List.range e.2).map (fun k => (s.readReg rs2).extractLsb' (8 * k) 8) ∧
        (∀ a, Memory.read t.mem a = Memory.read s.mem a) ∧ t.sensor = s.sensor ∧ t.act = s.act ∧
        SameRegs s t ∧ SameControl s t ∧ t.pc = s.pc + 4

/-- SB, SH, SW wholly inside the actuator block store their bytes for read-back, unclamped (R61, D12), and nothing else. -/
def Obligations.StoresToTheActuatorsAreKept : Prop :=
  ∀ (s : State) (rs1 rs2 : RegIdx) (imm : BitVec 12), s.params.Ok → s.act.length = s.params.ioMap.act.len →
    ∀ e ∈ [(Instr.sb rs1 rs2 imm, 1), (Instr.sh rs1 rs2 imm, 2), (Instr.sw rs1 rs2 imm, 4)],
      WithinBlock s.params.ioMap.act (effectiveAddress s rs1 imm).toNat e.2 →
      ∃ t, exec e.1 s = .next t ∧ t.act.length = s.act.length ∧
        (∀ k < e.2, guestByte t ((effectiveAddress s rs1 imm).toNat + k) = (s.readReg rs2).extractLsb' (8 * k) 8) ∧
        (∀ a, ¬((effectiveAddress s rs1 imm).toNat ≤ a ∧ a < (effectiveAddress s rs1 imm).toNat + e.2) →
          guestByte t a = guestByte s a) ∧
        (∀ a, Memory.read t.mem a = Memory.read s.mem a) ∧ t.log = s.log ∧ t.sensor = s.sensor ∧
        SameRegs s t ∧ SameControl s t ∧ t.pc = s.pc + 4

/-- SB, SH, SW wholly inside a reserved block change nothing but the pc (R62; that such an access does not trap is D9, log 6). -/
def Obligations.StoresToReservedBlocksAreIgnored : Prop :=
  ∀ (s : State) (rs1 rs2 : RegIdx) (imm : BitVec 12), s.params.Ok →
    ∀ e ∈ [(Instr.sb rs1 rs2 imm, 1), (Instr.sh rs1 rs2 imm, 2), (Instr.sw rs1 rs2 imm, 4)],
      ∀ b ∈ [s.params.ioMap.resD, s.params.ioMap.resE, s.params.ioMap.resF],
        WithinBlock b (effectiveAddress s rs1 imm).toNat e.2 → exec e.1 s = .next { s with pc := s.pc + 4 }

/-- Where stores fault, with nothing written (R185, R252, R254, R257; the order is D10, the record D11): outside the
arena; on a straddle in bounds, whatever the blocks; wholly inside the sensor block, whatever the value. -/
def Obligations.StoresFault : Prop :=
  ∀ (s : State) (rs1 rs2 : RegIdx) (imm : BitVec 12), s.params.Ok →
    ∀ e ∈ [(Instr.sb rs1 rs2 imm, 1), (Instr.sh rs1 rs2 imm, 2), (Instr.sw rs1 rs2 imm, 4)],
      let ea := effectiveAddress s rs1 imm
      (¬InArena s.params ea.toNat e.2 → exec e.1 s = .next (faultedState s .outOfBounds ea)) ∧
      (InArena s.params ea.toNat e.2 → Straddles s.params ea.toNat e.2 →
        exec e.1 s = .next (faultedState s .misalignedDeviceAccess ea)) ∧
      (WithinBlock s.params.ioMap.sensor ea.toNat e.2 → exec e.1 s = .next (faultedState s .readOnlyViolation ea))

/-! ## Memory -/

/-- The bounds check never wraps (R56): an access whose range leaves the arena in unbounded integers, a partly in-bounds one
too, raises `OutOfBounds` from read and write alike, and the check passes exactly when it does not (the recorded address is
D11); the effective address before it is the base plus the signed displacement modulo 2^32 (R170, R185, D17). -/
def Obligations.BoundsCheckNeverWraps : Prop :=
  (∀ (s : State) (a v : Word) (w : Width),
    (memRead s a w = .error ⟨.outOfBounds, a⟩ ↔ s.params.arenaLen < a.toNat + w.bytes) ∧
    (memWrite s a w v = .error ⟨.outOfBounds, a⟩ ↔ s.params.arenaLen < a.toNat + w.bytes)) ∧
  (∀ (s : State) (rs1 : RegIdx) (imm : BitVec 12),
    ((effectiveAddress s rs1 imm).toNat : Int) = ((s.readReg rs1).toNat + imm.toInt) % 2 ^ 32)

/-- In-bounds addresses outside all six blocks are plain memory for loads, stores and fetch, wherever they lie (R63). That no
range of them traps is the spec's decision D9 (TRAP_RANGES empty, log 6), that misaligned accesses complete too is D7 (log 7),
the byte order is D15 (log 8). -/
def Obligations.GapsArePlainMemory : Prop :=
  ∀ (s : State) (a v : Word) (w : Width), InArena s.params a.toNat w.bytes → OutsideBlocks s.params a.toNat w.bytes →
    (∃ u, memRead s a w = .ok u ∧
      ∀ k < 4, u.extractLsb' (8 * k) 8 = if k < w.bytes then Memory.read s.mem (a.toNat + k) else 0#8) ∧
    (Memory.wf s.mem → ∃ t, memWrite s a w v = .ok t ∧
      ∀ b, Memory.read t.mem b =
        if a.toNat ≤ b ∧ b < a.toNat + w.bytes then v.extractLsb' (8 * (b - a.toNat)) 8 else Memory.read s.mem b) ∧
    (w = .word → a.toNat % 4 = 0 → ∃ u, fetch { s with pc := a } = .ok u ∧
      ∀ k < 4, u.extractLsb' (8 * k) 8 = Memory.read s.mem (a.toNat + k))

/-- Read-back (R61, R65): after a store that completes in plain memory or in the actuator block, a read of the same width at
the same address gives the low bytes of the value stored. That the actuator block gives any value back raw, unclamped, is D12
(log 8); that a misaligned address does so too is D7 (log 7). -/
def Obligations.ReadAfterWriteGivesTheValue : Prop :=
  ∀ (s t : State) (a v : Word) (w : Width), s.params.Ok → Memory.wf s.mem → s.act.length = s.params.ioMap.act.len →
    (OutsideBlocks s.params a.toNat w.bytes ∨ WithinBlock s.params.ioMap.act a.toNat w.bytes) →
    memWrite s a w v = .ok t →
    ∃ u, memRead t a w = .ok u ∧ u.toNat = v.toNat % 2 ^ (8 * w.bytes)

/-- The log and the reserved blocks read as 0, before and after any store (R59, R62; that a reserved block does not trap is D9,
log 6). -/
def Obligations.LogAndReservedReadZero : Prop :=
  ∀ (s : State) (a : Word) (w : Width), s.params.Ok →
    ∀ b ∈ [s.params.ioMap.log, s.params.ioMap.resD, s.params.ioMap.resE, s.params.ioMap.resF],
      WithinBlock b a.toNat w.bytes → memRead s a w = .ok 0#32

/-- Mixed widths (R65): after SW to plain memory, LBU of byte `k` and LHU of the halfword at `k` give the stored word's bytes
at their little-endian places (D15), at misaligned addresses too (D7, log 7). -/
def Obligations.NarrowLoadsSeeTheStoredWord : Prop :=
  ∀ (s t : State) (rs1 rs2 rd rb : RegIdx) (imm : BitVec 12), Memory.wf s.mem →
    InArena s.params (effectiveAddress s rs1 imm).toNat 4 → OutsideBlocks s.params (effectiveAddress s rs1 imm).toNat 4 →
    exec (.sw rs1 rs2 imm) s = .next t → rd ≠ 0#5 →
    (∀ k < 4, (t.readReg rb).toNat = (effectiveAddress s rs1 imm).toNat + k →
      ∃ u, exec (.lbu rd rb 0#12) t = .next u ∧ (u.readReg rd).toNat = (s.readReg rs2).toNat / 2 ^ (8 * k) % 2 ^ 8) ∧
    (∀ k < 3, (t.readReg rb).toNat = (effectiveAddress s rs1 imm).toNat + k →
      ∃ u, exec (.lhu rd rb 0#12) t = .next u ∧ (u.readReg rd).toNat = (s.readReg rs2).toNat / 2 ^ (8 * k) % 2 ^ 16)

/-- A store is seen by the next fetch (R73): after SW to an aligned plain address, the fetch there answers the stored word. That
it is that word and not its bytes in another order rests on the byte order of data in plain memory, D15 (log 8): the spec's source
states the order of a fetch alone. -/
def Obligations.FetchSeesTheStoredWord : Prop :=
  ∀ (s t : State) (rs1 rs2 : RegIdx) (imm : BitVec 12), Memory.wf s.mem →
    (effectiveAddress s rs1 imm).toNat % 4 = 0 →
    InArena s.params (effectiveAddress s rs1 imm).toNat 4 → OutsideBlocks s.params (effectiveAddress s rs1 imm).toNat 4 →
    exec (.sw rs1 rs2 imm) s = .next t →
    fetch { t with pc := effectiveAddress s rs1 imm } = .ok (s.readReg rs2)

/-! ## Control flow -/

/-- The six branches (R195 to R202; in-bounds is D6): a taken branch to a valid target changes the pc alone, to pc plus the
signed offset modulo 2^32; a branch that is not taken goes to pc + 4, whatever its offset. -/
def Obligations.BranchesComplete : Prop :=
  ∀ (s : State) (rs1 rs2 : RegIdx) (off : BitVec 13),
    ∀ e ∈ [(Instr.beq rs1 rs2 off, decide (s.readReg rs1 = s.readReg rs2)),
           (.bne rs1 rs2 off, decide (s.readReg rs1 ≠ s.readReg rs2)),
           (.blt rs1 rs2 off, decide ((s.readReg rs1).toInt < (s.readReg rs2).toInt)),
           (.bge rs1 rs2 off, decide ((s.readReg rs1).toInt ≥ (s.readReg rs2).toInt)),
           (.bltu rs1 rs2 off, decide ((s.readReg rs1).toNat < (s.readReg rs2).toNat)),
           (.bgeu rs1 rs2 off, decide ((s.readReg rs1).toNat ≥ (s.readReg rs2).toNat))],
      (e.2 = true → ValidTarget s.params (pcPlus s off.toInt) → exec e.1 s = .next { s with pc := pcPlus s off.toInt }) ∧
      (e.2 = false → exec e.1 s = .next { s with pc := s.pc + 4 })

/-- A taken branch to an invalid target raises `InvalidBranchTarget` with the target, before anything changes (R195, R256;
in-bounds is D6, the record D11). -/
def Obligations.BranchesFault : Prop :=
  ∀ (s : State) (rs1 rs2 : RegIdx) (off : BitVec 13), ¬ValidTarget s.params (pcPlus s off.toInt) →
    (s.readReg rs1 = s.readReg rs2 →
      exec (.beq rs1 rs2 off) s = .next (faultedState s .invalidBranchTarget (pcPlus s off.toInt))) ∧
    (s.readReg rs1 ≠ s.readReg rs2 →
      exec (.bne rs1 rs2 off) s = .next (faultedState s .invalidBranchTarget (pcPlus s off.toInt))) ∧
    ((s.readReg rs1).toInt < (s.readReg rs2).toInt →
      exec (.blt rs1 rs2 off) s = .next (faultedState s .invalidBranchTarget (pcPlus s off.toInt))) ∧
    ((s.readReg rs1).toInt ≥ (s.readReg rs2).toInt →
      exec (.bge rs1 rs2 off) s = .next (faultedState s .invalidBranchTarget (pcPlus s off.toInt))) ∧
    ((s.readReg rs1).toNat < (s.readReg rs2).toNat →
      exec (.bltu rs1 rs2 off) s = .next (faultedState s .invalidBranchTarget (pcPlus s off.toInt))) ∧
    ((s.readReg rs1).toNat ≥ (s.readReg rs2).toNat →
      exec (.bgeu rs1 rs2 off) s = .next (faultedState s .invalidBranchTarget (pcPlus s off.toInt)))

/-- JAL and JALR to a valid target (R210 to R212; in-bounds is D6, the cleared bit 0 of JALR is D17): the link pc + 4 in `rd`,
the pc at the target formed from the old registers, nothing else. -/
def Obligations.JumpsComplete : Prop :=
  ∀ (s : State) (rd rs1 : RegIdx) (off : BitVec 21) (imm : BitVec 12) (target : Word),
    (ValidTarget s.params (pcPlus s off.toInt) →
      ∃ t, exec (.jal rd off) s = .next t ∧ WritesReg s t rd (s.pc + 4) ∧ t.pc = pcPlus s off.toInt) ∧
    ((target.toNat : Int) = ((s.readReg rs1).toNat + imm.toInt) % 2 ^ 32 / 2 * 2 → ValidTarget s.params target →
      ∃ t, exec (.jalr rd rs1 imm) s = .next t ∧ WritesReg s t rd (s.pc + 4) ∧ t.pc = target)

/-- A jump to an invalid target raises `InvalidBranchTarget` and writes neither the link nor the pc (R195, R212, R256;
in-bounds is D6, the record D11); JALR tests and records the target after bit 0 was cleared (R211; the clearing is D17, log 8). -/
def Obligations.JumpsFault : Prop :=
  ∀ (s : State) (rd rs1 : RegIdx) (off : BitVec 21) (imm : BitVec 12) (target : Word),
    (¬ValidTarget s.params (pcPlus s off.toInt) →
      exec (.jal rd off) s = .next (faultedState s .invalidBranchTarget (pcPlus s off.toInt))) ∧
    ((target.toNat : Int) = ((s.readReg rs1).toNat + imm.toInt) % 2 ^ 32 / 2 * 2 → ¬ValidTarget s.params target →
      exec (.jalr rd rs1 imm) s = .next (faultedState s .invalidBranchTarget target))

/-! ## The host's side -/

/-- Exhausting the budget is not an event (R297): a run of `m + n` steps is a run of `m` steps and then of `n`; and once the
Hart is `Faulted`, more budget changes nothing (R296). -/
def Obligations.BudgetsCompose : Prop :=
  (∀ (m n : Nat) (s : State), runSteps (m + n) s = runSteps n (runSteps m s)) ∧
  (∀ (m n : Nat) (s : State), (runSteps m s).run = .faulted → runSteps (m + n) s = runSteps m s)

/-- `write_sensors` replaces the snapshot and nothing else (R298), and every later read wholly inside the sensor block, of any
width and at any place in it, in any run, sees that snapshot (R60; D19): its bytes from the access's offset on, the lowest address
least significant (R51, D15, log 8), zeros above the width. That a misaligned one completes is D7 (log 7). -/
def Obligations.SensorReadsGiveTheLastSnapshot : Prop :=
  ∀ (snapshot : List Byte) (s t : State) (n : Nat), snapshot.length = s.params.ioMap.sensor.len →
    writeSensors snapshot s = some t →
    t = { s with sensor := snapshot } ∧
    (∀ (a : Word) (w : Width), s.params.Ok → WithinBlock s.params.ioMap.sensor a.toNat w.bytes →
      ∃ u, memRead (runSteps n t) a w = .ok u ∧
        ∀ k < 4, u.extractLsb' (8 * k) 8 =
          if k < w.bytes then byteAt snapshot (a.toNat - s.params.ioMap.sensor.base + k) else 0#8)

/-- The host's drains of the log, taken one after another across runs, join to the whole log (R59, R298). -/
def Obligations.DrainsJoinToTheLog : Prop :=
  ∀ (s : State) (n drained : Nat), drained ≤ s.log.length →
    (readLog drained s).1 ++ (readLog (readLog drained s).2 (runSteps n s)).1 = (runSteps n s).log.drop drained

/-- ACT_VIEW (R299): what the host reads of each field is the value decoded from the actuator bytes, brought to the nearest end
of the field's range where it lies outside. The decoder and the ranges are uninterpreted (D12, log 5). -/
def Obligations.ActuatorViewClamps : Prop :=
  ∀ s : State, ∀ e ∈
    [(Config.acceleratorRange, (Config.actDecode s.act).accelerator, (readActuators s).accelerator),
     (Config.brakeRange, (Config.actDecode s.act).brake, (readActuators s).brake),
     (Config.steeringRange, (Config.actDecode s.act).steering, (readActuators s).steering)],
    e.2.2 = if e.2.1 < e.1.lo then e.1.lo else if e.1.lo + e.1.span < e.2.1 then e.1.lo + e.1.span else e.2.1
end

