-- ==== Sys2Proof/Laws/Encoding.lean ====
section
/-! SUPPORT. The fields of encoded words, and words put together again from their fields (30_encoding.md rules R91 to R103). -/

namespace Sys2Proof

/-! ## Bits of a concatenation -/

theorem getLsbD_append_low {n m : Nat} (x : BitVec n) (y : BitVec m) {i : Nat} (h : i < m) :
    (x ++ y).getLsbD i = y.getLsbD i := by simp [BitVec.getLsbD_append, h]

theorem getLsbD_append_high {n m : Nat} (x : BitVec n) (y : BitVec m) {i : Nat} (h : m ≤ i) :
    (x ++ y).getLsbD i = x.getLsbD (i - m) := by simp [BitVec.getLsbD_append, Nat.not_lt.2 h]

theorem getLsbD_field {n lo len i : Nat} (x : BitVec n) (h : i < len) :
    (x.extractLsb' lo len).getLsbD i = x.getLsbD (lo + i) := by simp [h]

/-! ## The fields of encodeR -/

@[simp] theorem opcodeOf_encodeR (f7 : BitVec 7) (rs2 rs1 : RegIdx) (f3 : BitVec 3) (rd : RegIdx) (op : BitVec 7) :
    opcodeOf (encodeR f7 rs2 rs1 f3 rd op) = op := by
  apply BitVec.eq_of_getLsbD_eq
  intro i hi
  simp (disch := omega) only [opcodeOf, encodeR, getLsbD_field, getLsbD_append_low]
  congr 1
  omega

@[simp] theorem rdOf_encodeR (f7 : BitVec 7) (rs2 rs1 : RegIdx) (f3 : BitVec 3) (rd : RegIdx) (op : BitVec 7) :
    rdOf (encodeR f7 rs2 rs1 f3 rd op) = rd := by
  apply BitVec.eq_of_getLsbD_eq
  intro i hi
  simp (disch := omega) only [rdOf, encodeR, getLsbD_field, getLsbD_append_low, getLsbD_append_high]
  congr 1
  omega

@[simp] theorem funct3Of_encodeR (f7 : BitVec 7) (rs2 rs1 : RegIdx) (f3 : BitVec 3) (rd : RegIdx) (op : BitVec 7) :
    funct3Of (encodeR f7 rs2 rs1 f3 rd op) = f3 := by
  apply BitVec.eq_of_getLsbD_eq
  intro i hi
  simp (disch := omega) only [funct3Of, encodeR, getLsbD_field, getLsbD_append_low, getLsbD_append_high]
  congr 1
  omega

@[simp] theorem rs1Of_encodeR (f7 : BitVec 7) (rs2 rs1 : RegIdx) (f3 : BitVec 3) (rd : RegIdx) (op : BitVec 7) :
    rs1Of (encodeR f7 rs2 rs1 f3 rd op) = rs1 := by
  apply BitVec.eq_of_getLsbD_eq
  intro i hi
  simp (disch := omega) only [rs1Of, encodeR, getLsbD_field, getLsbD_append_low, getLsbD_append_high]
  congr 1
  omega

@[simp] theorem rs2Of_encodeR (f7 : BitVec 7) (rs2 rs1 : RegIdx) (f3 : BitVec 3) (rd : RegIdx) (op : BitVec 7) :
    rs2Of (encodeR f7 rs2 rs1 f3 rd op) = rs2 := by
  apply BitVec.eq_of_getLsbD_eq
  intro i hi
  simp (disch := omega) only [rs2Of, encodeR, getLsbD_field, getLsbD_append_low, getLsbD_append_high]
  congr 1
  omega

@[simp] theorem funct7Of_encodeR (f7 : BitVec 7) (rs2 rs1 : RegIdx) (f3 : BitVec 3) (rd : RegIdx) (op : BitVec 7) :
    funct7Of (encodeR f7 rs2 rs1 f3 rd op) = f7 := by
  apply BitVec.eq_of_getLsbD_eq
  intro i hi
  simp (disch := omega) only [funct7Of, encodeR, getLsbD_field, getLsbD_append_high]
  congr 1
  omega

@[simp] theorem shamtOf_encodeR (f7 : BitVec 7) (rs2 rs1 : RegIdx) (f3 : BitVec 3) (rd : RegIdx) (op : BitVec 7) :
    shamtOf (encodeR f7 rs2 rs1 f3 rd op) = rs2 := by
  apply BitVec.eq_of_getLsbD_eq
  intro i hi
  simp (disch := omega) only [shamtOf, encodeR, getLsbD_field, getLsbD_append_low, getLsbD_append_high]
  congr 1
  omega

/-! ## The fields of encodeI -/

@[simp] theorem opcodeOf_encodeI (imm : BitVec 12) (rs1 : RegIdx) (f3 : BitVec 3) (rd : RegIdx) (op : BitVec 7) :
    opcodeOf (encodeI imm rs1 f3 rd op) = op := by
  apply BitVec.eq_of_getLsbD_eq
  intro i hi
  simp (disch := omega) only [opcodeOf, encodeI, getLsbD_field, getLsbD_append_low]
  congr 1
  omega

@[simp] theorem rdOf_encodeI (imm : BitVec 12) (rs1 : RegIdx) (f3 : BitVec 3) (rd : RegIdx) (op : BitVec 7) :
    rdOf (encodeI imm rs1 f3 rd op) = rd := by
  apply BitVec.eq_of_getLsbD_eq
  intro i hi
  simp (disch := omega) only [rdOf, encodeI, getLsbD_field, getLsbD_append_low, getLsbD_append_high]
  congr 1
  omega

@[simp] theorem funct3Of_encodeI (imm : BitVec 12) (rs1 : RegIdx) (f3 : BitVec 3) (rd : RegIdx) (op : BitVec 7) :
    funct3Of (encodeI imm rs1 f3 rd op) = f3 := by
  apply BitVec.eq_of_getLsbD_eq
  intro i hi
  simp (disch := omega) only [funct3Of, encodeI, getLsbD_field, getLsbD_append_low, getLsbD_append_high]
  congr 1
  omega

@[simp] theorem rs1Of_encodeI (imm : BitVec 12) (rs1 : RegIdx) (f3 : BitVec 3) (rd : RegIdx) (op : BitVec 7) :
    rs1Of (encodeI imm rs1 f3 rd op) = rs1 := by
  apply BitVec.eq_of_getLsbD_eq
  intro i hi
  simp (disch := omega) only [rs1Of, encodeI, getLsbD_field, getLsbD_append_low, getLsbD_append_high]
  congr 1
  omega

@[simp] theorem immI_encodeI (imm : BitVec 12) (rs1 : RegIdx) (f3 : BitVec 3) (rd : RegIdx) (op : BitVec 7) :
    immI (encodeI imm rs1 f3 rd op) = imm := by
  apply BitVec.eq_of_getLsbD_eq
  intro i hi
  simp (disch := omega) only [immI, encodeI, getLsbD_field, getLsbD_append_high]
  congr 1
  omega

/-! ## The fields of encodeS -/

@[simp] theorem opcodeOf_encodeS (imm : BitVec 12) (rs2 rs1 : RegIdx) (f3 : BitVec 3) (op : BitVec 7) :
    opcodeOf (encodeS imm rs2 rs1 f3 op) = op := by
  apply BitVec.eq_of_getLsbD_eq
  intro i hi
  simp (disch := omega) only [opcodeOf, encodeS, getLsbD_field, getLsbD_append_low]
  congr 1
  omega

@[simp] theorem funct3Of_encodeS (imm : BitVec 12) (rs2 rs1 : RegIdx) (f3 : BitVec 3) (op : BitVec 7) :
    funct3Of (encodeS imm rs2 rs1 f3 op) = f3 := by
  apply BitVec.eq_of_getLsbD_eq
  intro i hi
  simp (disch := omega) only [funct3Of, encodeS, getLsbD_field, getLsbD_append_low, getLsbD_append_high]
  congr 1
  omega

@[simp] theorem rs1Of_encodeS (imm : BitVec 12) (rs2 rs1 : RegIdx) (f3 : BitVec 3) (op : BitVec 7) :
    rs1Of (encodeS imm rs2 rs1 f3 op) = rs1 := by
  apply BitVec.eq_of_getLsbD_eq
  intro i hi
  simp (disch := omega) only [rs1Of, encodeS, getLsbD_field, getLsbD_append_low, getLsbD_append_high]
  congr 1
  omega

@[simp] theorem rs2Of_encodeS (imm : BitVec 12) (rs2 rs1 : RegIdx) (f3 : BitVec 3) (op : BitVec 7) :
    rs2Of (encodeS imm rs2 rs1 f3 op) = rs2 := by
  apply BitVec.eq_of_getLsbD_eq
  intro i hi
  simp (disch := omega) only [rs2Of, encodeS, getLsbD_field, getLsbD_append_low, getLsbD_append_high]
  congr 1
  omega

/-! ## The fields of encodeB -/

@[simp] theorem opcodeOf_encodeB (off : BitVec 13) (rs2 rs1 : RegIdx) (f3 : BitVec 3) (op : BitVec 7) :
    opcodeOf (encodeB off rs2 rs1 f3 op) = op := by
  apply BitVec.eq_of_getLsbD_eq
  intro i hi
  simp (disch := omega) only [opcodeOf, encodeB, getLsbD_field, getLsbD_append_low]
  congr 1
  omega

@[simp] theorem funct3Of_encodeB (off : BitVec 13) (rs2 rs1 : RegIdx) (f3 : BitVec 3) (op : BitVec 7) :
    funct3Of (encodeB off rs2 rs1 f3 op) = f3 := by
  apply BitVec.eq_of_getLsbD_eq
  intro i hi
  simp (disch := omega) only [funct3Of, encodeB, getLsbD_field, getLsbD_append_low, getLsbD_append_high]
  congr 1
  omega

@[simp] theorem rs1Of_encodeB (off : BitVec 13) (rs2 rs1 : RegIdx) (f3 : BitVec 3) (op : BitVec 7) :
    rs1Of (encodeB off rs2 rs1 f3 op) = rs1 := by
  apply BitVec.eq_of_getLsbD_eq
  intro i hi
  simp (disch := omega) only [rs1Of, encodeB, getLsbD_field, getLsbD_append_low, getLsbD_append_high]
  congr 1
  omega

@[simp] theorem rs2Of_encodeB (off : BitVec 13) (rs2 rs1 : RegIdx) (f3 : BitVec 3) (op : BitVec 7) :
    rs2Of (encodeB off rs2 rs1 f3 op) = rs2 := by
  apply BitVec.eq_of_getLsbD_eq
  intro i hi
  simp (disch := omega) only [rs2Of, encodeB, getLsbD_field, getLsbD_append_low, getLsbD_append_high]
  congr 1
  omega

/-! ## The fields of encodeU -/

@[simp] theorem opcodeOf_encodeU (imm20 : BitVec 20) (rd : RegIdx) (op : BitVec 7) :
    opcodeOf (encodeU imm20 rd op) = op := by
  apply BitVec.eq_of_getLsbD_eq
  intro i hi
  simp (disch := omega) only [opcodeOf, encodeU, getLsbD_field, getLsbD_append_low]
  congr 1
  omega

@[simp] theorem rdOf_encodeU (imm20 : BitVec 20) (rd : RegIdx) (op : BitVec 7) :
    rdOf (encodeU imm20 rd op) = rd := by
  apply BitVec.eq_of_getLsbD_eq
  intro i hi
  simp (disch := omega) only [rdOf, encodeU, getLsbD_field, getLsbD_append_low, getLsbD_append_high]
  congr 1
  omega

@[simp] theorem immU_encodeU (imm20 : BitVec 20) (rd : RegIdx) (op : BitVec 7) :
    immU (encodeU imm20 rd op) = imm20 := by
  apply BitVec.eq_of_getLsbD_eq
  intro i hi
  simp (disch := omega) only [immU, encodeU, getLsbD_field, getLsbD_append_high]
  congr 1
  omega

/-! ## The fields of encodeJ -/

@[simp] theorem opcodeOf_encodeJ (off : BitVec 21) (rd : RegIdx) (op : BitVec 7) :
    opcodeOf (encodeJ off rd op) = op := by
  apply BitVec.eq_of_getLsbD_eq
  intro i hi
  simp (disch := omega) only [opcodeOf, encodeJ, getLsbD_field, getLsbD_append_low]
  congr 1
  omega

@[simp] theorem rdOf_encodeJ (off : BitVec 21) (rd : RegIdx) (op : BitVec 7) :
    rdOf (encodeJ off rd op) = rd := by
  apply BitVec.eq_of_getLsbD_eq
  intro i hi
  simp (disch := omega) only [rdOf, encodeJ, getLsbD_field, getLsbD_append_low, getLsbD_append_high]
  congr 1
  omega

/-! ## The scattered immediates -/

@[simp] theorem immS_encodeS (imm : BitVec 12) (rs2 rs1 : RegIdx) (f3 : BitVec 3) (op : BitVec 7) :
    immS (encodeS imm rs2 rs1 f3 op) = imm := by
  apply BitVec.eq_of_getLsbD_eq
  intro i hi
  have hs : i < 5 ∨ 5 ≤ i := by omega
  rcases hs with h | h <;>
    (simp (disch := omega) only [immS, encodeS, getLsbD_field, getLsbD_append_low, getLsbD_append_high]; congr 1; omega)

/-- An even offset is read back whole; bit 0 is not stored. -/
theorem immB_encodeB (off : BitVec 13) (h0 : off.getLsbD 0 = false) (rs2 rs1 : RegIdx) (f3 : BitVec 3) (op : BitVec 7) :
    immB (encodeB off rs2 rs1 f3 op) = off := by
  apply BitVec.eq_of_getLsbD_eq
  intro i hi
  by_cases hz : i = 0
  · subst hz
    simp (disch := omega) only [immB, getLsbD_append_low, h0]
    rfl
  have hs : i < 5 ∨ (5 ≤ i ∧ i < 11) ∨ (11 ≤ i ∧ i < 12) ∨ 12 ≤ i := by omega
  rcases hs with h | h | h | h <;>
    (simp (disch := omega) only [immB, encodeB, getLsbD_field, getLsbD_append_low, getLsbD_append_high]; congr 1; omega)

/-- An even offset is read back whole; bit 0 is not stored. -/
theorem immJ_encodeJ (off : BitVec 21) (h0 : off.getLsbD 0 = false) (rd : RegIdx) (op : BitVec 7) :
    immJ (encodeJ off rd op) = off := by
  apply BitVec.eq_of_getLsbD_eq
  intro i hi
  by_cases hz : i = 0
  · subst hz
    simp (disch := omega) only [immJ, getLsbD_append_low, h0]
    rfl
  have hs : i < 11 ∨ (11 ≤ i ∧ i < 12) ∨ (12 ≤ i ∧ i < 20) ∨ 20 ≤ i := by omega
  rcases hs with h | h | h | h <;>
    (simp (disch := omega) only [immJ, encodeJ, getLsbD_field, getLsbD_append_low, getLsbD_append_high]; congr 1; omega)

/-! ## A word is the encoding of its own fields -/

theorem encodeR_fields (w : Word) :
    encodeR (funct7Of w) (rs2Of w) (rs1Of w) (funct3Of w) (rdOf w) (opcodeOf w) = w := by
  apply BitVec.eq_of_getLsbD_eq
  intro i hi
  have hs : i < 7 ∨ (7 ≤ i ∧ i < 12) ∨ (12 ≤ i ∧ i < 15) ∨ (15 ≤ i ∧ i < 20) ∨ (20 ≤ i ∧ i < 25) ∨ 25 ≤ i := by omega
  rcases hs with h | h | h | h | h | h <;>
    (simp (disch := omega) only [encodeR, funct7Of, rs2Of, rs1Of, funct3Of, rdOf, opcodeOf, getLsbD_field, getLsbD_append_low, getLsbD_append_high]; congr 1; omega)

theorem encodeI_fields (w : Word) :
    encodeI (immI w) (rs1Of w) (funct3Of w) (rdOf w) (opcodeOf w) = w := by
  apply BitVec.eq_of_getLsbD_eq
  intro i hi
  have hs : i < 7 ∨ (7 ≤ i ∧ i < 12) ∨ (12 ≤ i ∧ i < 15) ∨ (15 ≤ i ∧ i < 20) ∨ 20 ≤ i := by omega
  rcases hs with h | h | h | h | h <;>
    (simp (disch := omega) only [encodeI, immI, rs1Of, funct3Of, rdOf, opcodeOf, getLsbD_field, getLsbD_append_low, getLsbD_append_high]; congr 1; omega)

theorem encodeS_fields (w : Word) :
    encodeS (immS w) (rs2Of w) (rs1Of w) (funct3Of w) (opcodeOf w) = w := by
  apply BitVec.eq_of_getLsbD_eq
  intro i hi
  have hs : i < 7 ∨ (7 ≤ i ∧ i < 12) ∨ (12 ≤ i ∧ i < 15) ∨ (15 ≤ i ∧ i < 20) ∨ (20 ≤ i ∧ i < 25) ∨ 25 ≤ i := by omega
  rcases hs with h | h | h | h | h | h <;>
    (simp (disch := omega) only [encodeS, immS, rs2Of, rs1Of, funct3Of, opcodeOf, getLsbD_field, getLsbD_append_low, getLsbD_append_high]; congr 1; omega)

theorem encodeB_fields (w : Word) :
    encodeB (immB w) (rs2Of w) (rs1Of w) (funct3Of w) (opcodeOf w) = w := by
  apply BitVec.eq_of_getLsbD_eq
  intro i hi
  have hs : i < 7 ∨ (7 ≤ i ∧ i < 8) ∨ (8 ≤ i ∧ i < 12) ∨ (12 ≤ i ∧ i < 15) ∨ (15 ≤ i ∧ i < 20) ∨ (20 ≤ i ∧ i < 25) ∨ (25 ≤ i ∧ i < 31) ∨ 31 ≤ i := by omega
  rcases hs with h | h | h | h | h | h | h | h <;>
    (simp (disch := omega) only [encodeB, immB, rs2Of, rs1Of, funct3Of, opcodeOf, getLsbD_field, getLsbD_append_low, getLsbD_append_high]; congr 1; omega)

theorem encodeU_fields (w : Word) :
    encodeU (immU w) (rdOf w) (opcodeOf w) = w := by
  apply BitVec.eq_of_getLsbD_eq
  intro i hi
  have hs : i < 7 ∨ (7 ≤ i ∧ i < 12) ∨ 12 ≤ i := by omega
  rcases hs with h | h | h <;>
    (simp (disch := omega) only [encodeU, immU, rdOf, opcodeOf, getLsbD_field, getLsbD_append_low, getLsbD_append_high]; congr 1; omega)

theorem encodeJ_fields (w : Word) :
    encodeJ (immJ w) (rdOf w) (opcodeOf w) = w := by
  apply BitVec.eq_of_getLsbD_eq
  intro i hi
  have hs : i < 7 ∨ (7 ≤ i ∧ i < 12) ∨ (12 ≤ i ∧ i < 20) ∨ (20 ≤ i ∧ i < 21) ∨ (21 ≤ i ∧ i < 31) ∨ 31 ≤ i := by omega
  rcases hs with h | h | h | h | h | h <;>
    (simp (disch := omega) only [encodeJ, immJ, rdOf, opcodeOf, getLsbD_field, getLsbD_append_low, getLsbD_append_high]; congr 1; omega)

/-! ## What the decoder answers -/

/-- The decoder accepts a word exactly when the case table has it. -/
theorem decode_ok_iff {w : Word} {i : Instr} : decode w = .ok i ↔ decodeWord w = some i := by
  unfold decode
  constructor
  · intro h
    split at h
    · rename_i e; injection h with h; rw [e, h]
    · cases h
  · intro h; simp [h]

/-- The decoder refuses a word exactly when the case table has nothing for it, under the word's class. -/
theorem decode_of_none {w : Word} (h : decodeWord w = none) : decode w = .error (.illegal (extClass w)) := by
  simp [decode, h]

/-- The offset of a branch is even (R100). -/
theorem immB_even (w : Word) : (immB w).getLsbD 0 = false := by
  simp (disch := omega) only [immB, getLsbD_append_low]
  rfl

/-- The offset of JAL is even (R102). -/
theorem immJ_even (w : Word) : (immJ w).getLsbD 0 = false := by
  simp (disch := omega) only [immJ, getLsbD_append_low]
  rfl

/-- The opcode of a word written as its upper 25 bits and its opcode. -/
theorem opcodeOf_append (hi : BitVec 25) (op : BitVec 7) : opcodeOf (hi ++ op) = op := by
  apply BitVec.eq_of_getLsbD_eq
  intro i h
  simp (disch := omega) only [opcodeOf, getLsbD_field, getLsbD_append_low]
  congr 1
  omega

/-- The two low bits of a word are those of its opcode. -/
theorem lowBits_eq (w : Word) : w.extractLsb' 0 2 = (opcodeOf w).extractLsb' 0 2 := by
  apply BitVec.eq_of_getLsbD_eq
  intro i h
  simp (disch := omega) only [opcodeOf, getLsbD_field]
  congr 1
  omega

/-! ## The masks of the opcode map (R105) -/

theorem encodeR_mask (f7 : BitVec 7) (rs2 rs1 : RegIdx) (f3 : BitVec 3) (rd : RegIdx) (op : BitVec 7) :
    encodeR f7 rs2 rs1 f3 rd op &&& 0xFE00707F#32 = encodeR f7 0 0 f3 0 op := by
  rw [show 0xFE00707F#32 = encodeR (BitVec.allOnes 7) 0 0 (BitVec.allOnes 3) 0 (BitVec.allOnes 7) by decide]
  unfold encodeR
  rw [BitVec.and_append, BitVec.and_append, BitVec.and_append, BitVec.and_append, BitVec.and_append,
    BitVec.and_allOnes, BitVec.and_allOnes, BitVec.and_allOnes]
  simp only [BitVec.ofNat_eq_ofNat, BitVec.and_zero]

theorem encodeI_mask (imm : BitVec 12) (rs1 : RegIdx) (f3 : BitVec 3) (rd : RegIdx) (op : BitVec 7) :
    encodeI imm rs1 f3 rd op &&& 0x0000707F#32 = encodeI 0 0 f3 0 op := by
  rw [show 0x0000707F#32 = encodeI 0 0 (BitVec.allOnes 3) 0 (BitVec.allOnes 7) by decide]
  unfold encodeI
  rw [BitVec.and_append, BitVec.and_append, BitVec.and_append, BitVec.and_append, BitVec.and_allOnes, BitVec.and_allOnes]
  simp only [BitVec.ofNat_eq_ofNat, BitVec.and_zero]

theorem encodeU_mask (imm20 : BitVec 20) (rd : RegIdx) (op : BitVec 7) :
    encodeU imm20 rd op &&& 0x0000007F#32 = encodeU 0 0 op := by
  rw [show 0x0000007F#32 = encodeU 0 0 (BitVec.allOnes 7) by decide]
  unfold encodeU
  rw [BitVec.and_append, BitVec.and_append, BitVec.and_allOnes]
  simp only [BitVec.ofNat_eq_ofNat, BitVec.and_zero]

/-- A word matches a row with funct7 exactly when its three function fields are the row's. -/
theorem maskR_iff (w : Word) (f7 : BitVec 7) (f3 : BitVec 3) (op : BitVec 7) :
    w &&& 0xFE00707F#32 = encodeR f7 0 0 f3 0 op ↔ funct7Of w = f7 ∧ funct3Of w = f3 ∧ opcodeOf w = op := by
  constructor
  · intro h
    rw [← encodeR_fields w, encodeR_mask] at h
    exact ⟨by simpa using congrArg funct7Of h, by simpa using congrArg funct3Of h, by simpa using congrArg opcodeOf h⟩
  · rintro ⟨rfl, rfl, rfl⟩
    conv_lhs => rw [← encodeR_fields w]
    exact encodeR_mask ..

/-- A word matches a row with funct3 exactly when its two function fields are the row's. -/
theorem maskI_iff (w : Word) (f3 : BitVec 3) (op : BitVec 7) :
    w &&& 0x0000707F#32 = encodeI 0 0 f3 0 op ↔ funct3Of w = f3 ∧ opcodeOf w = op := by
  constructor
  · intro h
    rw [← encodeI_fields w, encodeI_mask] at h
    exact ⟨by simpa using congrArg funct3Of h, by simpa using congrArg opcodeOf h⟩
  · rintro ⟨rfl, rfl⟩
    conv_lhs => rw [← encodeI_fields w]
    exact encodeI_mask ..

/-- A word matches a row without function fields exactly when its opcode is the row's. -/
theorem maskU_iff (w : Word) (op : BitVec 7) : w &&& 0x0000007F#32 = encodeU 0 0 op ↔ opcodeOf w = op := by
  constructor
  · intro h
    rw [← encodeU_fields w, encodeU_mask] at h
    simpa using congrArg opcodeOf h
  · rintro rfl
    conv_lhs => rw [← encodeU_fields w]
    exact encodeU_mask ..

end Sys2Proof
end

