-- ==== Sys2Proof/Laws/Bytes.lean ====
section
/-! SUPPORT. Bytes of words and words of bytes, little-endian (20_memory.md rule R51), and the device byte arrays. -/

namespace Sys2Proof.Machine

@[simp] theorem bytesOf_length (v : Word) (n : Nat) : (bytesOf v n).length = n := by simp [bytesOf]

@[simp] theorem readBytes_length (f : Nat → Byte) (a n : Nat) : (readBytes f a n).length = n := by simp [readBytes]

/-- Byte `k` of a value laid out in memory order. -/
theorem bytesOf_getD (v : Word) {n k : Nat} (h : k < n) : (bytesOf v n).getD k 0 = byteOf v k := by
  simp [bytesOf, h]

theorem readBytes_getD (f : Nat → Byte) (a : Nat) {n k : Nat} (h : k < n) :
    (readBytes f a n).getD k 0 = f (a + k) := by simp [readBytes, h]

/-- Bit `j` of the word read from a list of bytes is bit `j % 8` of byte `j / 8`. -/
theorem wordOf_getLsbD (bs : List Byte) (j : Nat) (hj : j < 32) :
    (wordOf bs).getLsbD j = (bs.getD (j / 8) 0).getLsbD (j % 8) := by
  induction bs generalizing j with
  | nil => simp [wordOf]
  | cons b bs ih =>
    simp only [wordOf, BitVec.getLsbD_or, BitVec.getLsbD_setWidth, BitVec.getLsbD_shiftLeft]
    by_cases h : j < 8
    · have h1 : j / 8 = 0 := by omega
      have h2 : j % 8 = j := by omega
      simp [h, hj, h1, h2]
    · have h1 : j / 8 = (j - 8) / 8 + 1 := by omega
      have h2 : j % 8 = (j - 8) % 8 := by omega
      have h3 : b.getLsbD j = false := BitVec.getLsbD_of_ge b j (by omega)
      rw [ih (j - 8) (by omega), h1, h2]
      simp [h, hj, h3]

/-- Byte `k` of the word read from a list of bytes is the list's byte `k` (R51). -/
theorem byteOf_wordOf (bs : List Byte) {k : Nat} (hk : k < 4) : byteOf (wordOf bs) k = bs.getD k 0 := by
  apply BitVec.eq_of_getLsbD_eq
  intro i hi
  rw [byteOf, BitVec.getLsbD_extractLsb', wordOf_getLsbD _ _ (by omega)]
  have h1 : (8 * k + i) / 8 = k := by omega
  have h2 : (8 * k + i) % 8 = i := by omega
  simp [hi, h1, h2]

/-- A word is its four bytes (R51). -/
theorem word_ext {v w : Word} (h : ∀ k < 4, byteOf v k = byteOf w k) : v = w := by
  apply BitVec.eq_of_getLsbD_eq
  intro i hi
  have e := congrArg (fun b : Byte => b.getLsbD (i % 8)) (h (i / 8) (by omega))
  have h1 : 8 * (i / 8) + i % 8 = i := by omega
  have h2 : i % 8 < 8 := by omega
  simpa [byteOf, h1, h2] using e

/-- Reading back the four bytes of a word gives the word (R51, R90). -/
theorem wordOf_bytesOf (v : Word) : wordOf (bytesOf v 4) = v :=
  word_ext fun k hk => by rw [byteOf_wordOf _ hk, bytesOf_getD v hk]

/-- Byte `k` of the low 8 bits, zero-extended. -/
theorem byteOf_zext8 (v : Word) : byteOf (zext8 v) 0 = byteOf v 0 := by
  apply BitVec.eq_of_getLsbD_eq
  intro i hi
  have : i < 32 := by omega
  simp [byteOf, zext8, hi, this]

@[simp] theorem layBytes_length (bs : List Byte) (i : Nat) (vs : List Byte) :
    (layBytes bs i vs).length = bs.length := by
  induction vs generalizing bs i with
  | nil => rfl
  | cons v vs ih => simp [layBytes, ih]

/-- What a device's byte array holds after bytes were laid into it: those bytes in their places, and every other byte as
before. -/
theorem byteAt_layBytes (bs : List Byte) (i : Nat) (vs : List Byte) (j : Nat) (h : i + vs.length ≤ bs.length) :
    byteAt (layBytes bs i vs) j = if i ≤ j ∧ j < i + vs.length then vs.getD (j - i) 0 else byteAt bs j := by
  induction vs generalizing bs i with
  | nil => simp [layBytes]
  | cons v vs ih =>
    simp only [List.length_cons] at h
    rw [layBytes, ih (bs.set i v) (i + 1) (by simp only [List.length_set]; omega)]
    simp only [List.length_cons]
    have hset : byteAt (bs.set i v) j = if j = i then v else byteAt bs j := by
      simp only [byteAt, List.getD_eq_getElem?_getD, List.getElem?_set]
      by_cases e : i = j
      · subst e
        have : i < bs.length := by omega
        simp [this]
      · simp [e, Ne.symm e]
    rw [hset]
    rcases Nat.lt_trichotomy j i with e | e | e
    · rw [if_neg (by omega), if_neg (by omega), if_neg (by omega)]
    · subst e; rw [if_neg (by omega), if_pos rfl, if_pos (by omega)]; simp
    · have h3 : j - i = (j - (i + 1)) + 1 := by omega
      by_cases h4 : j < i + 1 + vs.length
      · rw [if_pos (by omega), if_pos (by omega), h3]; rfl
      · rw [if_neg (by omega), if_neg (by omega), if_neg (by omega)]

end Sys2Proof.Machine
end

