-- ==== Sys2Proof/Laws/IoBridge.lean ====
section
/-! SUPPORT. What `place` says of an access, in terms of its bytes (20_memory.md rules R53, R57, R58, R63). -/

namespace Sys2Proof.Machine

/-- A block is touched exactly when it holds one of the bytes. -/
theorem touches_iff (b : Block) (a n : Nat) :
    touches b a n = true ↔ ∃ k < n, b.base ≤ a + k ∧ a + k < b.base + b.len := by
  simp only [touches, decide_eq_true_eq]
  constructor
  · intro h
    exact ⟨max a b.base - a, by omega, by omega, by omega⟩
  · rintro ⟨k, hk, h1, h2⟩
    omega

/-- A block covers an access exactly when it holds all of its bytes. -/
theorem covers_iff (b : Block) (a : Nat) {n : Nat} (hn : 0 < n) :
    covers b a n = true ↔ ∀ k < n, b.base ≤ a + k ∧ a + k < b.base + b.len := by
  simp only [covers, decide_eq_true_eq]
  constructor
  · rintro ⟨h1, h2⟩ k hk
    omega
  · intro h
    have h1 := h 0 hn
    have h2 := h (n - 1) (by omega)
    omega

theorem touched_eq_nil_iff (m : IoMap) (a n : Nat) :
    touched m a n = [] ↔ ∀ e ∈ m.blocks, touches e.2 a n = false := by
  simp [touched, List.filter_eq_nil_iff]

/-- An access is plain exactly when no byte of it is in any block. -/
theorem place_plain_iff (m : IoMap) (a n : Nat) : place m a n = .plain ↔ touched m a n = [] := by
  unfold place
  split
  · simp_all
  · rename_i h; simp only [h]; split <;> simp
  · rename_i h1 h2; constructor
    · intro h; cases h
    · intro h; exact absurd h h1

/-- An access that is inside a block lies wholly in a block of that kind of the table, the only block it touches. -/
theorem place_inside {m : IoMap} {a n : Nat} {k : BlockKind} {o : Nat} (h : place m a n = .inside k o) :
    ∃ b, touched m a n = [(k, b)] ∧ (k, b) ∈ m.blocks ∧ covers b a n = true ∧ o = a - b.base := by
  unfold place at h
  split at h
  · cases h
  · rename_i _ b ht
    split at h
    · rename_i hc
      cases h
      have hb : (k, b) ∈ touched m a n := by rw [ht]; simp
      exact ⟨b, ht, (List.mem_filter.1 hb).1, hc, rfl⟩
    · cases h
  · cases h

/-- With the blocks pairwise disjoint (R57), an access wholly in one block is placed inside it. -/
theorem place_of_covers {m : IoMap} (hd : m.blocks.Pairwise (fun e f => e.2.Disjoint f.2)) {a n : Nat} (hn : 0 < n)
    {k : BlockKind} {b : Block} (hb : (k, b) ∈ m.blocks) (hc : covers b a n = true) :
    place m a n = .inside k (a - b.base) := by
  have hcov := (covers_iff b a hn).1 hc
  have key : ∀ l : List (BlockKind × Block), l.Pairwise (fun e f => e.2.Disjoint f.2) → (k, b) ∈ l →
      l.filter (fun e => touches e.2 a n) = [(k, b)] := by
    intro l hl hm
    induction l with
    | nil => cases hm
    | cons e l ih =>
      have hp := List.pairwise_cons.1 hl
      have ht : touches b a n = true := (touches_iff b a n).2 ⟨0, hn, by simpa using hcov 0 hn⟩
      rcases List.mem_cons.1 hm with rfl | hm'
      · have hrest : l.filter (fun e => touches e.2 a n) = [] := by
          rw [List.filter_eq_nil_iff]
          intro f hf htf
          obtain ⟨j, hj, h1, h2⟩ := (touches_iff f.2 a n).1 htf
          have h3 := hcov j hj
          have h4 := hp.1 f hf
          simp only [Block.Disjoint] at h4
          omega
        simp [ht, hrest]
      · have hne : touches e.2 a n = false := by
          rw [Bool.eq_false_iff]
          intro hte
          obtain ⟨j, hj, h1, h2⟩ := (touches_iff e.2 a n).1 hte
          have h3 := hcov j hj
          have h4 := hp.1 (k, b) hm'
          simp only [Block.Disjoint] at h4
          omega
        rw [List.filter_cons, hne]
        simpa using ih hp.2 hm'
  unfold place touched
  rw [key m.blocks hd hb]
  simp [hc]

/-- An access with a byte in a block and a byte outside it is a straddle. -/
theorem place_of_straddle {m : IoMap} {a n : Nat} {e : BlockKind × Block} (he : e ∈ m.blocks)
    (ht : touches e.2 a n = true) (hc : covers e.2 a n = false) : place m a n = .straddle := by
  have hm : e ∈ touched m a n := List.mem_filter.2 ⟨he, ht⟩
  unfold place
  split
  · rename_i h; rw [h] at hm; cases hm
  · rename_i k b h
    rw [h] at hm
    have : e = (k, b) := by simpa using hm
    subst this
    simp [show covers b a n = false from hc]
  · rfl

/-- A single byte never straddles two ways: its place is never a straddle when the blocks are disjoint (R58). -/
theorem place_byte_ne_straddle {m : IoMap} (hd : m.blocks.Pairwise (fun e f => e.2.Disjoint f.2)) (a : Nat) :
    place m a 1 ≠ .straddle := by
  by_cases h : touched m a 1 = []
  · rw [(place_plain_iff m a 1).2 h]; simp
  · obtain ⟨e, he⟩ := List.exists_mem_of_ne_nil _ h
    obtain ⟨hb, ht⟩ := List.mem_filter.1 he
    have hc : covers e.2 a 1 = true := by
      obtain ⟨j, hj, h1, h2⟩ := (touches_iff e.2 a 1).1 ht
      refine (covers_iff e.2 a Nat.one_pos).2 fun k hk => ?_
      have : k = j := by omega
      subst this; exact ⟨h1, h2⟩
    rw [place_of_covers hd Nat.one_pos (k := e.1) (b := e.2) hb hc]
    simp

end Sys2Proof.Machine
end

