-- ==== Sys2Proof/Laws/State.lean ====
section
/-! SUPPORT. One lemma for each field of State and each update of it, all true by rfl, so that no later proof unfolds a
record update; and what each update leaves of `x[i]`. -/

namespace Sys2Proof.Machine

@[simp] theorem State.writeReg_params (s : State) (i : RegIdx) (v : Word) : (s.writeReg i v).params = s.params := rfl
@[simp] theorem State.writeReg_regs (s : State) (i : RegIdx) (v : Word) : (s.writeReg i v).regs = Regs.write s.regs i v := rfl
@[simp] theorem State.writeReg_pc (s : State) (i : RegIdx) (v : Word) : (s.writeReg i v).pc = s.pc := rfl
@[simp] theorem State.writeReg_run (s : State) (i : RegIdx) (v : Word) : (s.writeReg i v).run = s.run := rfl
@[simp] theorem State.writeReg_fault (s : State) (i : RegIdx) (v : Word) : (s.writeReg i v).fault = s.fault := rfl
@[simp] theorem State.writeReg_mem (s : State) (i : RegIdx) (v : Word) : (s.writeReg i v).mem = s.mem := rfl
@[simp] theorem State.writeReg_log (s : State) (i : RegIdx) (v : Word) : (s.writeReg i v).log = s.log := rfl
@[simp] theorem State.writeReg_sensor (s : State) (i : RegIdx) (v : Word) : (s.writeReg i v).sensor = s.sensor := rfl
@[simp] theorem State.writeReg_act (s : State) (i : RegIdx) (v : Word) : (s.writeReg i v).act = s.act := rfl

@[simp] theorem State.setPc_params (s : State) (t : Word) : (s.setPc t).params = s.params := rfl
@[simp] theorem State.setPc_regs (s : State) (t : Word) : (s.setPc t).regs = s.regs := rfl
@[simp] theorem State.setPc_pc (s : State) (t : Word) : (s.setPc t).pc = t := rfl
@[simp] theorem State.setPc_run (s : State) (t : Word) : (s.setPc t).run = s.run := rfl
@[simp] theorem State.setPc_fault (s : State) (t : Word) : (s.setPc t).fault = s.fault := rfl
@[simp] theorem State.setPc_mem (s : State) (t : Word) : (s.setPc t).mem = s.mem := rfl
@[simp] theorem State.setPc_log (s : State) (t : Word) : (s.setPc t).log = s.log := rfl
@[simp] theorem State.setPc_sensor (s : State) (t : Word) : (s.setPc t).sensor = s.sensor := rfl
@[simp] theorem State.setPc_act (s : State) (t : Word) : (s.setPc t).act = s.act := rfl
@[simp] theorem State.setPc_readReg (s : State) (t : Word) (i : RegIdx) : (s.setPc t).readReg i = s.readReg i := rfl

@[simp] theorem State.advance_params (s : State) : (s.advance).params = s.params := rfl
@[simp] theorem State.advance_regs (s : State) : (s.advance).regs = s.regs := rfl
@[simp] theorem State.advance_pc (s : State) : (s.advance).pc = s.nextPc := rfl
@[simp] theorem State.advance_run (s : State) : (s.advance).run = s.run := rfl
@[simp] theorem State.advance_fault (s : State) : (s.advance).fault = s.fault := rfl
@[simp] theorem State.advance_mem (s : State) : (s.advance).mem = s.mem := rfl
@[simp] theorem State.advance_log (s : State) : (s.advance).log = s.log := rfl
@[simp] theorem State.advance_sensor (s : State) : (s.advance).sensor = s.sensor := rfl
@[simp] theorem State.advance_act (s : State) : (s.advance).act = s.act := rfl
@[simp] theorem State.advance_readReg (s : State) (i : RegIdx) : (s.advance).readReg i = s.readReg i := rfl

@[simp] theorem State.withMem_params (s : State) (m : Memory) : (s.withMem m).params = s.params := rfl
@[simp] theorem State.withMem_regs (s : State) (m : Memory) : (s.withMem m).regs = s.regs := rfl
@[simp] theorem State.withMem_pc (s : State) (m : Memory) : (s.withMem m).pc = s.pc := rfl
@[simp] theorem State.withMem_run (s : State) (m : Memory) : (s.withMem m).run = s.run := rfl
@[simp] theorem State.withMem_fault (s : State) (m : Memory) : (s.withMem m).fault = s.fault := rfl
@[simp] theorem State.withMem_mem (s : State) (m : Memory) : (s.withMem m).mem = m := rfl
@[simp] theorem State.withMem_log (s : State) (m : Memory) : (s.withMem m).log = s.log := rfl
@[simp] theorem State.withMem_sensor (s : State) (m : Memory) : (s.withMem m).sensor = s.sensor := rfl
@[simp] theorem State.withMem_act (s : State) (m : Memory) : (s.withMem m).act = s.act := rfl
@[simp] theorem State.withMem_readReg (s : State) (m : Memory) (i : RegIdx) : (s.withMem m).readReg i = s.readReg i := rfl

@[simp] theorem State.withLog_params (s : State) (l : List Byte) : (s.withLog l).params = s.params := rfl
@[simp] theorem State.withLog_regs (s : State) (l : List Byte) : (s.withLog l).regs = s.regs := rfl
@[simp] theorem State.withLog_pc (s : State) (l : List Byte) : (s.withLog l).pc = s.pc := rfl
@[simp] theorem State.withLog_run (s : State) (l : List Byte) : (s.withLog l).run = s.run := rfl
@[simp] theorem State.withLog_fault (s : State) (l : List Byte) : (s.withLog l).fault = s.fault := rfl
@[simp] theorem State.withLog_mem (s : State) (l : List Byte) : (s.withLog l).mem = s.mem := rfl
@[simp] theorem State.withLog_log (s : State) (l : List Byte) : (s.withLog l).log = l := rfl
@[simp] theorem State.withLog_sensor (s : State) (l : List Byte) : (s.withLog l).sensor = s.sensor := rfl
@[simp] theorem State.withLog_act (s : State) (l : List Byte) : (s.withLog l).act = s.act := rfl
@[simp] theorem State.withLog_readReg (s : State) (l : List Byte) (i : RegIdx) : (s.withLog l).readReg i = s.readReg i := rfl

@[simp] theorem State.withAct_params (s : State) (a : List Byte) : (s.withAct a).params = s.params := rfl
@[simp] theorem State.withAct_regs (s : State) (a : List Byte) : (s.withAct a).regs = s.regs := rfl
@[simp] theorem State.withAct_pc (s : State) (a : List Byte) : (s.withAct a).pc = s.pc := rfl
@[simp] theorem State.withAct_run (s : State) (a : List Byte) : (s.withAct a).run = s.run := rfl
@[simp] theorem State.withAct_fault (s : State) (a : List Byte) : (s.withAct a).fault = s.fault := rfl
@[simp] theorem State.withAct_mem (s : State) (a : List Byte) : (s.withAct a).mem = s.mem := rfl
@[simp] theorem State.withAct_log (s : State) (a : List Byte) : (s.withAct a).log = s.log := rfl
@[simp] theorem State.withAct_sensor (s : State) (a : List Byte) : (s.withAct a).sensor = s.sensor := rfl
@[simp] theorem State.withAct_act (s : State) (a : List Byte) : (s.withAct a).act = a := rfl
@[simp] theorem State.withAct_readReg (s : State) (a : List Byte) (i : RegIdx) : (s.withAct a).readReg i = s.readReg i := rfl

@[simp] theorem State.withSensor_params (s : State) (b : List Byte) : (s.withSensor b).params = s.params := rfl
@[simp] theorem State.withSensor_regs (s : State) (b : List Byte) : (s.withSensor b).regs = s.regs := rfl
@[simp] theorem State.withSensor_pc (s : State) (b : List Byte) : (s.withSensor b).pc = s.pc := rfl
@[simp] theorem State.withSensor_run (s : State) (b : List Byte) : (s.withSensor b).run = s.run := rfl
@[simp] theorem State.withSensor_fault (s : State) (b : List Byte) : (s.withSensor b).fault = s.fault := rfl
@[simp] theorem State.withSensor_mem (s : State) (b : List Byte) : (s.withSensor b).mem = s.mem := rfl
@[simp] theorem State.withSensor_log (s : State) (b : List Byte) : (s.withSensor b).log = s.log := rfl
@[simp] theorem State.withSensor_sensor (s : State) (b : List Byte) : (s.withSensor b).sensor = b := rfl
@[simp] theorem State.withSensor_act (s : State) (b : List Byte) : (s.withSensor b).act = s.act := rfl
@[simp] theorem State.withSensor_readReg (s : State) (b : List Byte) (i : RegIdx) : (s.withSensor b).readReg i = s.readReg i := rfl

@[simp] theorem State.takeFault_params (s : State) (r : Raise) : (s.takeFault r).params = s.params := rfl
@[simp] theorem State.takeFault_regs (s : State) (r : Raise) : (s.takeFault r).regs = s.regs := rfl
@[simp] theorem State.takeFault_pc (s : State) (r : Raise) : (s.takeFault r).pc = s.pc := rfl
@[simp] theorem State.takeFault_run (s : State) (r : Raise) : (s.takeFault r).run = .faulted := rfl
@[simp] theorem State.takeFault_fault (s : State) (r : Raise) : (s.takeFault r).fault = some ⟨r.kind, r.info, s.pc⟩ := rfl
@[simp] theorem State.takeFault_mem (s : State) (r : Raise) : (s.takeFault r).mem = s.mem := rfl
@[simp] theorem State.takeFault_log (s : State) (r : Raise) : (s.takeFault r).log = s.log := rfl
@[simp] theorem State.takeFault_sensor (s : State) (r : Raise) : (s.takeFault r).sensor = s.sensor := rfl
@[simp] theorem State.takeFault_act (s : State) (r : Raise) : (s.takeFault r).act = s.act := rfl
@[simp] theorem State.takeFault_readReg (s : State) (r : Raise) (i : RegIdx) : (s.takeFault r).readReg i = s.readReg i := rfl

@[simp] theorem State.construct_params (p : Params) (image : Memory) (entry : Word) :
    (State.construct p image entry).params = p := rfl
@[simp] theorem State.construct_pc (p : Params) (image : Memory) (entry : Word) :
    (State.construct p image entry).pc = entry := rfl
@[simp] theorem State.construct_run (p : Params) (image : Memory) (entry : Word) :
    (State.construct p image entry).run = .running := rfl
@[simp] theorem State.construct_fault (p : Params) (image : Memory) (entry : Word) :
    (State.construct p image entry).fault = none := rfl
@[simp] theorem State.construct_mem (p : Params) (image : Memory) (entry : Word) :
    (State.construct p image entry).mem = image := rfl
@[simp] theorem State.construct_log (p : Params) (image : Memory) (entry : Word) :
    (State.construct p image entry).log = [] := rfl
@[simp] theorem State.construct_sensor (p : Params) (image : Memory) (entry : Word) :
    (State.construct p image entry).sensor = List.replicate p.ioMap.sensor.len 0 := rfl
@[simp] theorem State.construct_act (p : Params) (image : Memory) (entry : Word) :
    (State.construct p image entry).act = List.replicate p.ioMap.act.len 0 := rfl

end Sys2Proof.Machine
end

