-- ==== Sys2Proof/Laws/Memory.lean ====
section
/-! SUPPORT. Reading memory after writing it, and every memory operation keeps the canonical form
(20_memory.md rules R51, R53, R54). -/

namespace Sys2Proof.Machine

/-- A list whose addresses all lie above `a` lists nothing at `a`. -/
theorem Memory.read_of_lt {m : Memory} {a : Nat} (h : ∀ c ∈ m, a < c.1) : Memory.read m a = unlistedByte := by
  induction m with
  | nil => rfl
  | cons c rest ih =>
    have h1 : a ≠ c.1 := Nat.ne_of_lt (h c (by simp))
    simp only [Memory.read, h1, if_false]
    exact ih fun d hd => h d (by simp [hd])

theorem Memory.read_cons (a : Nat) (v : Byte) (rest : Memory) (b : Nat) (h : ∀ c ∈ rest, a < c.1) :
    Memory.read (Memory.cons a v rest) b = if b = a then v else Memory.read rest b := by
  by_cases hv : v = unlistedByte
  · by_cases hb : b = a
    · subst hb; simp [Memory.cons, hv, Memory.read_of_lt h]
    · simp [Memory.cons, hv, hb]
  · simp [Memory.cons, hv, Memory.read]

/-- A read after a write of one byte: the value written there, and every other byte as before. -/
theorem Memory.read_write {m : Memory} (hm : Memory.wf m) (a : Nat) (v : Byte) (b : Nat) :
    Memory.read (Memory.write m a v) b = if b = a then v else Memory.read m b := by
  induction m with
  | nil => simpa [Memory.write, Memory.read] using Memory.read_cons a v [] b (by simp)
  | cons c rest ih =>
    obtain ⟨c, u⟩ := c
    have hp := hm.1
    simp only [List.pairwise_cons] at hp
    have hr : Memory.wf rest := ⟨hp.2, fun d hd => hm.2 d (by simp [hd])⟩
    simp only [Memory.write]
    split
    · rename_i h
      rw [Memory.read_cons]
      intro d hd
      simp only [List.mem_cons] at hd
      rcases hd with rfl | hd
      · exact h
      · exact Nat.lt_trans h (hp.1 d hd)
    · split
      · rename_i h1 h2
        subst h2
        rw [Memory.read_cons _ _ _ _ hp.1]
        by_cases hb : b = a <;> simp [Memory.read, hb]
      · rename_i h1 h2
        simp only [Memory.read, ih hr]
        by_cases hb : b = c
        · subst hb; simp [Ne.symm h2]
        · simp [hb]

theorem Memory.mem_cons_iff {a : Nat} {v : Byte} {rest : Memory} {c : Host.Cell} (h : c ∈ Memory.cons a v rest) :
    c = (a, v) ∨ c ∈ rest := by
  unfold Memory.cons at h
  split at h
  · exact .inr h
  · simpa using h

/-- A cell after a write is the one written or was there before. -/
theorem Memory.mem_write {m : Memory} {a : Nat} {v : Byte} {c : Host.Cell} (h : c ∈ Memory.write m a v) :
    c = (a, v) ∨ c ∈ m := by
  induction m with
  | nil => exact Memory.mem_cons_iff h
  | cons d rest ih =>
    simp only [Memory.write] at h
    split at h
    · exact Memory.mem_cons_iff h
    · split at h
      · rcases Memory.mem_cons_iff h with h | h
        · exact .inl h
        · exact .inr (by simp [h])
      · simp only [List.mem_cons] at h ⊢
        rcases h with h | h
        · exact .inr (.inl h)
        · exact (ih h).imp_right .inr

theorem Memory.cons_wf {a : Nat} {v : Byte} {rest : Memory} (hr : Memory.wf rest) (h : ∀ c ∈ rest, a < c.1) :
    Memory.wf (Memory.cons a v rest) := by
  unfold Memory.cons
  split
  · exact hr
  · rename_i hv
    refine ⟨List.pairwise_cons.2 ⟨h, hr.1⟩, ?_⟩
    intro c hc
    simp only [List.mem_cons] at hc
    rcases hc with rfl | hc
    · exact hv
    · exact hr.2 c hc

/-- A write of one byte keeps the canonical form. -/
theorem Memory.write_wf {m : Memory} (hm : Memory.wf m) (a : Nat) (v : Byte) : Memory.wf (Memory.write m a v) := by
  induction m with
  | nil => exact Memory.cons_wf hm (by simp)
  | cons c rest ih =>
    obtain ⟨c, u⟩ := c
    have hp := hm.1
    simp only [List.pairwise_cons] at hp
    have hr : Memory.wf rest := ⟨hp.2, fun d hd => hm.2 d (by simp [hd])⟩
    simp only [Memory.write]
    split
    · rename_i h
      refine Memory.cons_wf hm ?_
      intro d hd
      simp only [List.mem_cons] at hd
      rcases hd with rfl | hd
      · exact h
      · exact Nat.lt_trans h (hp.1 d hd)
    · split
      · rename_i h1 h2
        subst h2
        exact Memory.cons_wf hr hp.1
      · rename_i h1 h2
        refine ⟨List.pairwise_cons.2 ⟨?_, (ih hr).1⟩, ?_⟩
        · intro d hd
          rcases Memory.mem_write hd with rfl | hd
          · exact Nat.lt_of_le_of_ne (Nat.le_of_not_lt h1) (Ne.symm h2)
          · exact hp.1 d hd
        · intro d hd
          simp only [List.mem_cons] at hd
          rcases hd with rfl | hd
          · exact hm.2 _ (by simp)
          · exact (ih hr).2 d hd

/-- A write of several bytes keeps the canonical form. -/
theorem Memory.writeBytes_wf {m : Memory} (hm : Memory.wf m) (a : Nat) (bs : List Byte) :
    Memory.wf (Memory.writeBytes m a bs) := by
  induction bs generalizing m a with
  | nil => exact hm
  | cons b bs ih => exact ih (Memory.write_wf hm a b) (a + 1)

/-- A cell after a write of several bytes lies in the range written or was there before. -/
theorem Memory.mem_writeBytes {m : Memory} {a : Nat} {bs : List Byte} {c : Host.Cell}
    (h : c ∈ Memory.writeBytes m a bs) : (a ≤ c.1 ∧ c.1 < a + bs.length) ∨ c ∈ m := by
  induction bs generalizing m a with
  | nil => exact .inr h
  | cons b bs ih =>
    rcases ih h with h | h
    · exact .inl ⟨by omega, by simp only [List.length_cons]; omega⟩
    · rcases Memory.mem_write h with rfl | h
      · exact .inl ⟨Nat.le_refl _, by simp⟩
      · exact .inr h

/-- A read after a write of several bytes: the byte written there, and every byte outside as before. -/
theorem Memory.read_writeBytes {m : Memory} (hm : Memory.wf m) (a : Nat) (bs : List Byte) (b : Nat) :
    Memory.read (Memory.writeBytes m a bs) b
      = if a ≤ b ∧ b < a + bs.length then bs.getD (b - a) 0 else Memory.read m b := by
  induction bs generalizing m a with
  | nil => simp [Memory.writeBytes]
  | cons v bs ih =>
    rw [Memory.writeBytes, ih (Memory.write_wf hm a v), Memory.read_write hm]
    simp only [List.length_cons]
    rcases Nat.lt_trichotomy b a with h | h | h
    · have h1 : ¬(a + 1 ≤ b ∧ b < a + 1 + bs.length) := by omega
      have h2 : ¬(a ≤ b ∧ b < a + (bs.length + 1)) := by omega
      rw [if_neg h1, if_neg h2, if_neg (Nat.ne_of_lt h)]
    · subst h; simp
    · have h3 : b - a = (b - (a + 1)) + 1 := by omega
      by_cases h4 : b < a + 1 + bs.length
      · have h1 : a + 1 ≤ b ∧ b < a + 1 + bs.length := ⟨h, h4⟩
        have h2 : a ≤ b ∧ b < a + (bs.length + 1) := by omega
        rw [if_pos h1, if_pos h2, h3]; rfl
      · have h1 : ¬(a + 1 ≤ b ∧ b < a + 1 + bs.length) := by omega
        have h2 : ¬(a ≤ b ∧ b < a + (bs.length + 1)) := by omega
        rw [if_neg h1, if_neg h2, if_neg (Nat.ne_of_gt h)]

end Sys2Proof.Machine
end

