-- ==== Sys2Proof/Laws/Regs.lean ====
section
/-! SUPPORT. Reading a register after writing one (10_state.md rules R22, R23). -/

namespace Sys2Proof.Machine

theorem Regs.read_zero (r : Regs) : Regs.read r 0#5 = 0 := by simp [Regs.read]

theorem Regs.write_zero (r : Regs) (v : Word) : Regs.write r 0#5 v = r := by simp [Regs.write]

/-- Two registers other than `x0` with one cell are one register. -/
theorem cell_inj {i j : RegIdx} (hi : i ≠ 0#5) (hj : j ≠ 0#5) (h : i.toNat - 1 = j.toNat - 1) : i = j := by
  have h1 : i.toNat ≠ 0 := fun e => hi (BitVec.eq_of_toNat_eq (by simpa using e))
  have h2 : j.toNat ≠ 0 := fun e => hj (BitVec.eq_of_toNat_eq (by simpa using e))
  exact BitVec.eq_of_toNat_eq (by omega)

theorem Regs.read_write (r : Regs) (i j : RegIdx) (v : Word) :
    Regs.read (Regs.write r i v) j = if j = i ∧ i ≠ 0#5 then v else Regs.read r j := by
  by_cases hj : j = 0#5
  · subst hj
    have h : ¬(0#5 = i ∧ i ≠ 0#5) := fun e => e.2 e.1.symm
    simp [Regs.read, h]
  · by_cases hi : i = 0#5
    · subst hi; simp [Regs.write]
    · by_cases hij : j = i
      · subst hij; simp [Regs.read, Regs.write, hj]
      · have hc : i.toNat - 1 ≠ j.toNat - 1 := fun e => hij (cell_inj hi hj e).symm
        simp [Regs.read, Regs.write, hi, hj, hij, hc]

/-- `x0` reads as 0 (R22). -/
@[simp] theorem State.readReg_zero (s : State) : s.readReg 0#5 = 0 := Regs.read_zero s.regs

/-- A write to `x0` changes nothing (R22). -/
@[simp] theorem State.writeReg_zero (s : State) (v : Word) : s.writeReg 0#5 v = s := by
  cases s; simp [State.writeReg, Regs.write]

/-- What every register holds after one is written (R22, R23). -/
theorem State.readReg_writeReg (s : State) (i j : RegIdx) (v : Word) :
    (s.writeReg i v).readReg j = if j = i ∧ i ≠ 0#5 then v else s.readReg j :=
  Regs.read_write s.regs i j v

theorem State.readReg_writeReg_same (s : State) {i : RegIdx} (h : i ≠ 0#5) (v : Word) :
    (s.writeReg i v).readReg i = v := by simp [State.readReg_writeReg, h]

theorem State.readReg_writeReg_ne (s : State) {i j : RegIdx} (h : j ≠ i) (v : Word) :
    (s.writeReg i v).readReg j = s.readReg j := by simp [State.readReg_writeReg, h]

/-- Every register of a constructed Hart is 0 (R35, D5). -/
@[simp] theorem State.construct_readReg (p : Params) (image : Memory) (entry : Word) (i : RegIdx) :
    (State.construct p image entry).readReg i = 0 := by
  simp [State.readReg, State.construct, Regs.read]

end Sys2Proof.Machine
end

