-- ==== Sys2Proof/Laws/Ops.lean ====
section
/-! SUPPORT. What each shared operation can do, said once: the memory primitives (20_memory.md rules R53 to R55), the target
check (44_branches.md R195), and the shapes of the meanings. -/

namespace Sys2Proof.Machine

theorem leavesArena_iff (s : State) (a : Word) (n : Nat) :
    leavesArena s a n = true ↔ s.params.arenaLen < a.toNat + n := by simp [leavesArena]

theorem leavesArena_false_iff (s : State) (a : Word) (n : Nat) :
    leavesArena s a n = false ↔ a.toNat + n ≤ s.params.arenaLen := by simp [leavesArena]

theorem Width.bytes_pos (w : Width) : 0 < w.bytes := by cases w <;> decide

theorem Width.bytes_le (w : Width) : w.bytes ≤ 4 := by cases w <;> decide

/-- The address is a multiple of 4 exactly when its two low bits are 0. -/
theorem aligned4_iff (a : Word) : aligned4 a = true ↔ a.toNat % 4 = 0 := by
  simp only [aligned4, beq_iff_eq]
  rw [← BitVec.toNat_inj]
  simp

/-! ## MemRead -/

/-- What `MemRead` raises, and when (R53): out of bounds, or a straddle in bounds. -/
theorem memRead_error {s : State} {a : Word} {w : Width} {r : Raise} (h : memRead s a w = .error r) :
    (r = ⟨.outOfBounds, a⟩ ∧ s.params.arenaLen < a.toNat + w.bytes) ∨
    (r = ⟨.misalignedDeviceAccess, a⟩ ∧ a.toNat + w.bytes ≤ s.params.arenaLen ∧
      place s.params.ioMap a.toNat w.bytes = .straddle) := by
  unfold memRead at h
  split at h
  · rename_i hb
    cases h
    exact .inl ⟨rfl, (leavesArena_iff _ _ _).1 hb⟩
  · rename_i hb
    have hin := (leavesArena_false_iff _ _ _).1 (Bool.eq_false_iff.2 hb)
    split at h <;> cases h
    rename_i hp
    exact .inr ⟨rfl, hin, hp⟩

/-- A read that completes was in bounds and no straddle (R53). -/
theorem memRead_ok {s : State} {a : Word} {w : Width} {v : Word} (h : memRead s a w = .ok v) :
    a.toNat + w.bytes ≤ s.params.arenaLen ∧ place s.params.ioMap a.toNat w.bytes ≠ .straddle := by
  unfold memRead at h
  split at h
  · cases h
  · rename_i hb
    refine ⟨(leavesArena_false_iff _ _ _).1 (Bool.eq_false_iff.2 hb), fun hp => ?_⟩
    rw [hp] at h
    cases h

/-! ## MemWrite -/

/-- What `MemWrite` raises, and when (R54): out of bounds, a straddle, or a store inside the sensor block. -/
theorem memWrite_error {s : State} {a : Word} {w : Width} {v : Word} {r : Raise} (h : memWrite s a w v = .error r) :
    (r = ⟨.outOfBounds, a⟩ ∧ s.params.arenaLen < a.toNat + w.bytes) ∨
    (r = ⟨.misalignedDeviceAccess, a⟩ ∧ a.toNat + w.bytes ≤ s.params.arenaLen ∧
      place s.params.ioMap a.toNat w.bytes = .straddle) ∨
    (r = ⟨.readOnlyViolation, a⟩ ∧ a.toNat + w.bytes ≤ s.params.arenaLen ∧
      ∃ o, place s.params.ioMap a.toNat w.bytes = .inside .sensor o) := by
  unfold memWrite at h
  split at h
  · rename_i hb
    cases h
    exact .inl ⟨rfl, (leavesArena_iff _ _ _).1 hb⟩
  · rename_i hb
    have hin := (leavesArena_false_iff _ _ _).1 (Bool.eq_false_iff.2 hb)
    split at h <;> cases h
    · rename_i hp; exact .inr (.inl ⟨rfl, hin, hp⟩)
    · rename_i o hp; exact .inr (.inr ⟨rfl, hin, o, hp⟩)

/-- Everything a completing write can do (R54): lay the bytes into plain memory, append them to the log, lay them into the
actuator bytes, or nothing (a reserved block). -/
theorem memWrite_ok {s t : State} {a : Word} {w : Width} {v : Word} (h : memWrite s a w v = .ok t) :
    a.toNat + w.bytes ≤ s.params.arenaLen ∧
    ((place s.params.ioMap a.toNat w.bytes = .plain ∧
        t = s.withMem (Memory.writeBytes s.mem a.toNat (bytesOf v w.bytes))) ∨
     (∃ o, place s.params.ioMap a.toNat w.bytes = .inside .log o ∧ t = s.withLog (s.log ++ bytesOf v w.bytes)) ∨
     (∃ o, place s.params.ioMap a.toNat w.bytes = .inside .actuator o ∧
        t = s.withAct (layBytes s.act o (bytesOf v w.bytes))) ∨
     (∃ o, place s.params.ioMap a.toNat w.bytes = .inside .reserved o ∧ t = s)) := by
  unfold memWrite at h
  split at h
  · cases h
  · rename_i hb
    refine ⟨(leavesArena_false_iff _ _ _).1 (Bool.eq_false_iff.2 hb), ?_⟩
    split at h <;> cases h
    · rename_i hp; exact .inl ⟨hp, rfl⟩
    · rename_i o hp; exact .inr (.inl ⟨o, hp, rfl⟩)
    · rename_i o hp; exact .inr (.inr (.inl ⟨o, hp, rfl⟩))
    · rename_i o hp; exact .inr (.inr (.inr ⟨o, hp, rfl⟩))

/-- What every completing write leaves as it was. -/
theorem memWrite_frame {s t : State} {a : Word} {w : Width} {v : Word} (h : memWrite s a w v = .ok t) :
    t.params = s.params ∧ t.regs = s.regs ∧ t.pc = s.pc ∧ t.run = s.run ∧ t.fault = s.fault ∧ t.sensor = s.sensor := by
  obtain ⟨-, ⟨-, rfl⟩ | ⟨o, -, rfl⟩ | ⟨o, -, rfl⟩ | ⟨o, -, rfl⟩⟩ := memWrite_ok h <;> simp

/-- A completing write keeps the canonical form of memory. -/
theorem memWrite_wf {s t : State} {a : Word} {w : Width} {v : Word} (h : memWrite s a w v = .ok t)
    (hm : Memory.wf s.mem) : Memory.wf t.mem := by
  obtain ⟨-, ⟨-, rfl⟩ | ⟨o, -, rfl⟩ | ⟨o, -, rfl⟩ | ⟨o, -, rfl⟩⟩ := memWrite_ok h
  · exact Memory.writeBytes_wf hm _ _
  all_goals exact hm

/-! ## Fetch -/

/-- A fetch that answers a word: the pc aligned, in bounds and touching no block, and the word there (R55). -/
theorem fetch_ok {s : State} {inst : Word} (h : fetch s = .ok inst) :
    aligned4 s.pc = true ∧ s.pc.toNat + 4 ≤ s.params.arenaLen ∧ touched s.params.ioMap s.pc.toNat 4 = [] ∧
    inst = wordOf (readBytes (Memory.read s.mem) s.pc.toNat 4) := by
  unfold fetch at h
  split at h
  · cases h
  · rename_i h1
    split at h
    · cases h
    · rename_i h2
      split at h
      · cases h
      · rename_i h3
        cases h
        exact ⟨by simpa using h1, (leavesArena_false_iff _ _ _).1 (Bool.eq_false_iff.2 h2), by simpa using h3, rfl⟩

/-- A fetch at an aligned, in-bounds pc that touches no block answers the word there (R55). -/
theorem fetch_eq {s : State} (h1 : aligned4 s.pc = true) (h2 : s.pc.toNat + 4 ≤ s.params.arenaLen)
    (h3 : touched s.params.ioMap s.pc.toNat 4 = []) :
    fetch s = .ok (wordOf (readBytes (Memory.read s.mem) s.pc.toNat 4)) := by
  have h2' := (leavesArena_false_iff s s.pc 4).2 h2
  simp [fetch, h1, h2', h3]

/-! ## CheckTarget -/

/-- A target passes exactly when it is a multiple of 4 with its whole instruction in the arena (R195). -/
theorem checkTarget_none_iff (s : State) (t : Word) :
    checkTarget s t = none ↔ aligned4 t = true ∧ t.toNat + 4 ≤ s.params.arenaLen := by
  unfold checkTarget
  by_cases h1 : aligned4 t = true
  · by_cases h2 : leavesArena s t 4 = true
    · have := (leavesArena_iff s t 4).1 h2
      simp only [h1, h2]; simp; omega
    · have := (leavesArena_false_iff s t 4).1 (Bool.eq_false_iff.2 h2)
      simp only [h1, h2]; simpa using this
  · simp [h1]

/-- What a rejected target raises (R195, R256). -/
theorem checkTarget_some {s : State} {t : Word} {r : Raise} (h : checkTarget s t = some r) :
    r = ⟨.invalidBranchTarget, t⟩ := by
  unfold checkTarget at h
  split at h
  · cases h; rfl
  · split at h <;> cases h
    rfl

/-- A target that does not pass is rejected. -/
theorem checkTarget_of_not {s : State} {t : Word}
    (h : ¬(aligned4 t = true ∧ t.toNat + 4 ≤ s.params.arenaLen)) :
    checkTarget s t = some ⟨.invalidBranchTarget, t⟩ := by
  cases hc : checkTarget s t with
  | none => exact absurd ((checkTarget_none_iff s t).1 hc) h
  | some r => rw [checkTarget_some hc]

/-! ## The shapes of the meanings -/

theorem load_ok {s : State} {w : Width} {ext : Word → Word} {rd rs1 : RegIdx} {imm : BitVec 12} {v : Word}
    (h : memRead s (effectiveAddress s rs1 imm) w = .ok v) : load w ext rd rs1 imm s = writeBack s rd (ext v) := by
  simp [load, h]

theorem load_error {s : State} {w : Width} {ext : Word → Word} {rd rs1 : RegIdx} {imm : BitVec 12} {r : Raise}
    (h : memRead s (effectiveAddress s rs1 imm) w = .error r) : load w ext rd rs1 imm s = raise s r := by
  simp [load, h]

theorem store_ok {s t : State} {w : Width} {rs1 rs2 : RegIdx} {imm : BitVec 12}
    (h : memWrite s (effectiveAddress s rs1 imm) w (s.readReg rs2) = .ok t) :
    store w rs1 rs2 imm s = .next t.advance := by simp [store, h]

theorem store_error {s : State} {w : Width} {rs1 rs2 : RegIdx} {imm : BitVec 12} {r : Raise}
    (h : memWrite s (effectiveAddress s rs1 imm) w (s.readReg rs2) = .error r) :
    store w rs1 rs2 imm s = raise s r := by simp [store, h]

theorem branch_not_taken {s : State} {c : Word → Word → Bool} {rs1 rs2 : RegIdx} {off : BitVec 13}
    (h : c (s.readReg rs1) (s.readReg rs2) = false) : branch c rs1 rs2 off s = .next s.advance := by
  simp [branch, h]

theorem branch_taken {s : State} {c : Word → Word → Bool} {rs1 rs2 : RegIdx} {off : BitVec 13}
    (h : c (s.readReg rs1) (s.readReg rs2) = true) (ht : checkTarget s (branchTarget s off) = none) :
    branch c rs1 rs2 off s = .next (s.setPc (branchTarget s off)) := by simp [branch, h, ht]

theorem branch_rejected {s : State} {c : Word → Word → Bool} {rs1 rs2 : RegIdx} {off : BitVec 13} {r : Raise}
    (h : c (s.readReg rs1) (s.readReg rs2) = true) (ht : checkTarget s (branchTarget s off) = some r) :
    branch c rs1 rs2 off s = raise s r := by simp [branch, h, ht]

theorem jumpAndLink_ok {s : State} {rd : RegIdx} {t : Word} (h : checkTarget s t = none) :
    jumpAndLink rd t s = .next ((s.writeReg rd s.nextPc).setPc t) := by simp [jumpAndLink, h]

theorem jumpAndLink_rejected {s : State} {rd : RegIdx} {t : Word} {r : Raise} (h : checkTarget s t = some r) :
    jumpAndLink rd t s = raise s r := by simp [jumpAndLink, h]

end Sys2Proof.Machine
end

