-- ==== Sys2Proof/Laws/Access.lean ====
section
/-! SUPPORT. The machine's `place`, `memRead` and `memWrite` in the byte-by-byte terms of Safety.lean (20_memory.md rules R53,
R54, R58 to R63). -/

namespace Sys2Proof.Machine

theorem touches_iff_inBlock (b : Block) (a n : Nat) : touches b a n = true ↔ ∃ k < n, InBlock b (a + k) :=
  touches_iff b a n

theorem covers_iff_within (b : Block) (a : Nat) {n : Nat} (hn : 0 < n) : covers b a n = true ↔ WithinBlock b a n :=
  covers_iff b a hn

/-- No byte in any block, in both spellings. -/
theorem outsideBlocks_iff (p : Params) (a n : Nat) : OutsideBlocks p a n ↔ touched p.ioMap a n = [] := by
  rw [touched_eq_nil_iff]
  constructor
  · intro h e he
    rw [Bool.eq_false_iff]
    intro ht
    obtain ⟨k, hk, hb⟩ := (touches_iff_inBlock _ _ _).1 ht
    exact h k hk e he hb
  · intro h k hk e he hb
    exact absurd ((touches_iff_inBlock e.2 a n).2 ⟨k, hk, hb⟩) (by simp [h e he])

theorem place_of_outside {p : Params} {a n : Nat} (h : OutsideBlocks p a n) : place p.ioMap a n = .plain :=
  (place_plain_iff _ _ _).2 ((outsideBlocks_iff p a n).1 h)

theorem outside_of_place {p : Params} {a n : Nat} (h : place p.ioMap a n = .plain) : OutsideBlocks p a n :=
  (outsideBlocks_iff p a n).2 ((place_plain_iff _ _ _).1 h)

/-- The blocks of constructed parameters are pairwise disjoint (R9). -/
theorem params_disjoint {p : Params} (h : p.Ok) :
    p.ioMap.blocks.Pairwise (fun e f => e.2.Disjoint f.2) := h.2.2.2.2

/-- Every block of constructed parameters lies in the arena (R9). -/
theorem params_block_le {p : Params} (h : p.Ok) {e : BlockKind × Block} (he : e ∈ p.ioMap.blocks) :
    e.2.base + e.2.len ≤ p.arenaLen := (h.2.2.2.1 e he).2

theorem place_of_within {p : Params} (hp : p.Ok) {k : BlockKind} {b : Block} (hb : (k, b) ∈ p.ioMap.blocks) {a n : Nat}
    (hn : 0 < n) (h : WithinBlock b a n) : place p.ioMap a n = .inside k (a - b.base) :=
  place_of_covers (params_disjoint hp) hn hb ((covers_iff_within b a hn).2 h)

/-- An access within a block of constructed parameters is in bounds. -/
theorem inArena_of_within {p : Params} (hp : p.Ok) {k : BlockKind} {b : Block} (hb : (k, b) ∈ p.ioMap.blocks) {a n : Nat}
    (hn : 0 < n) (h : WithinBlock b a n) : InArena p a n := by
  have h1 := params_block_le hp hb
  have h2 := h (n - 1) (by omega)
  simp only [InArena, InBlock] at *
  omega

theorem place_of_straddles {p : Params} {a n : Nat} (h : Straddles p a n) : place p.ioMap a n = .straddle := by
  obtain ⟨e, he, ⟨k, hk, h1⟩, ⟨j, hj, h2⟩⟩ := h
  refine place_of_straddle he ((touches_iff_inBlock _ _ _).2 ⟨k, hk, h1⟩) (Bool.eq_false_iff.2 fun hc => ?_)
  exact h2 ((covers_iff_within e.2 a (by omega)).1 hc j hj)

/-- An access wholly within a block does not straddle. -/
theorem not_straddles_of_within {p : Params} (hp : p.Ok) {k : BlockKind} {b : Block} (hb : (k, b) ∈ p.ioMap.blocks)
    {a n : Nat} (hn : 0 < n) (h : WithinBlock b a n) : ¬Straddles p a n := by
  intro hs
  have hpl := place_of_within hp hb hn h
  rw [place_of_straddles hs] at hpl
  cases hpl

/-- An access that does not straddle is plain or wholly within a block. -/
theorem plain_or_within {p : Params} {a n : Nat} (h : ¬Straddles p a n) :
    OutsideBlocks p a n ∨ ∃ e ∈ p.ioMap.blocks, WithinBlock e.2 a n := by
  by_cases ho : OutsideBlocks p a n
  · exact .inl ho
  · refine .inr ?_
    simp only [OutsideBlocks, not_forall, not_not] at ho
    obtain ⟨k, hk, e, he, hb⟩ := ho
    refine ⟨e, he, fun j hj => ?_⟩
    by_contra hn
    exact h ⟨e, he, ⟨k, hk, hb⟩, ⟨j, hj, hn⟩⟩

/-- A single byte never straddles. -/
theorem not_straddles_byte (p : Params) (a : Nat) : ¬Straddles p a 1 := by
  rintro ⟨e, he, ⟨k, hk, h1⟩, ⟨j, hj, h2⟩⟩
  have : k = j := by omega
  subst this; exact h2 h1

/-- The six entries of the table, by name. -/
theorem mem_blocks {m : IoMap} {e : BlockKind × Block} : e ∈ m.blocks ↔
    e = (.log, m.log) ∨ e = (.sensor, m.sensor) ∨ e = (.actuator, m.act) ∨
    e = (.reserved, m.resD) ∨ e = (.reserved, m.resE) ∨ e = (.reserved, m.resF) := by
  simp [IoMap.blocks]

/-- Two blocks of the table with a common byte are one entry's block (R57: non-overlapping). -/
theorem notInBlock_of_disjoint {b c : Block} (h : b.Disjoint c) {a : Nat} (hb : InBlock b a) : ¬InBlock c a := by
  simp only [Block.Disjoint, InBlock] at *
  omega

/-- The pairwise disjointness of the table's blocks, spelled out for the kinds whose reads differ. -/
theorem params_apart {p : Params} (h : p.Ok) :
    p.ioMap.log.Disjoint p.ioMap.sensor ∧ p.ioMap.log.Disjoint p.ioMap.act ∧ p.ioMap.sensor.Disjoint p.ioMap.act ∧
    (∀ b ∈ [p.ioMap.resD, p.ioMap.resE, p.ioMap.resF],
      p.ioMap.log.Disjoint b ∧ p.ioMap.sensor.Disjoint b ∧ p.ioMap.act.Disjoint b) := by
  obtain ⟨h1, hd⟩ := List.pairwise_cons.1 (params_disjoint h)
  obtain ⟨h2, hd⟩ := List.pairwise_cons.1 hd
  obtain ⟨h3, -⟩ := List.pairwise_cons.1 hd
  refine ⟨h1 (.sensor, _) (by simp), h1 (.actuator, _) (by simp), h2 (.actuator, _) (by simp), fun b hb => ?_⟩
  have hr : (BlockKind.reserved, b) ∈ [(BlockKind.reserved, p.ioMap.resD), (.reserved, p.ioMap.resE),
      (.reserved, p.ioMap.resF)] := by simpa using hb
  exact ⟨h1 (.reserved, b) (List.mem_cons_of_mem _ (List.mem_cons_of_mem _ hr)),
    h2 (.reserved, b) (List.mem_cons_of_mem _ hr), h3 (.reserved, b) hr⟩

theorem guestByte_plain {s : State} {a n k : Nat} (h : OutsideBlocks s.params a n) (hk : k < n) :
    guestByte s (a + k) = Memory.read s.mem (a + k) := by
  have h' := fun e he => h k hk e he
  simp only [mem_blocks] at h'
  have h1 := h' _ (.inl rfl)
  have h2 := h' _ (.inr (.inl rfl))
  have h3 := h' _ (.inr (.inr (.inl rfl)))
  have h4 := h' _ (.inr (.inr (.inr (.inl rfl))))
  have h5 := h' _ (.inr (.inr (.inr (.inr (.inl rfl)))))
  have h6 := h' _ (.inr (.inr (.inr (.inr (.inr rfl)))))
  dsimp only at h1 h2 h3 h4 h5 h6
  rw [guestByte, if_neg h1, if_neg h2, if_neg h3, if_neg (by rintro (h | h | h) <;> contradiction)]

theorem guestByte_log {s : State} {a : Nat} (h : InBlock s.params.ioMap.log a) : guestByte s a = 0 := by
  rw [guestByte, if_pos h]

theorem guestByte_sensor {s : State} (hp : s.params.Ok) {a : Nat} (h : InBlock s.params.ioMap.sensor a) :
    guestByte s a = byteAt s.sensor (a - s.params.ioMap.sensor.base) := by
  have h1 : ¬InBlock s.params.ioMap.log a := fun hl => notInBlock_of_disjoint (params_apart hp).1 hl h
  rw [guestByte, if_neg h1, if_pos h]

theorem guestByte_act {s : State} (hp : s.params.Ok) {a : Nat} (h : InBlock s.params.ioMap.act a) :
    guestByte s a = byteAt s.act (a - s.params.ioMap.act.base) := by
  have h1 : ¬InBlock s.params.ioMap.log a := fun hl => notInBlock_of_disjoint (params_apart hp).2.1 hl h
  have h2 : ¬InBlock s.params.ioMap.sensor a := fun hl => notInBlock_of_disjoint (params_apart hp).2.2.1 hl h
  rw [guestByte, if_neg h1, if_neg h2, if_pos h]

theorem guestByte_reserved {s : State} (hp : s.params.Ok) {b : Block}
    (hb : b ∈ [s.params.ioMap.resD, s.params.ioMap.resE, s.params.ioMap.resF]) {a : Nat} (h : InBlock b a) :
    guestByte s a = 0 := by
  obtain ⟨d1, d2, d3⟩ := (params_apart hp).2.2.2 b hb
  have h1 : ¬InBlock s.params.ioMap.log a := fun hl => notInBlock_of_disjoint d1 hl h
  have h2 : ¬InBlock s.params.ioMap.sensor a := fun hl => notInBlock_of_disjoint d2 hl h
  have h3 : ¬InBlock s.params.ioMap.act a := fun hl => notInBlock_of_disjoint d3 hl h
  have h4 : InBlock s.params.ioMap.resD a ∨ InBlock s.params.ioMap.resE a ∨ InBlock s.params.ioMap.resF a := by
    simp only [List.mem_cons, List.not_mem_nil, or_false] at hb
    rcases hb with rfl | rfl | rfl
    · exact .inl h
    · exact .inr (.inl h)
    · exact .inr (.inr h)
  rw [guestByte, if_neg h1, if_neg h2, if_neg h3, if_pos h4]

/-- The bytes of a word read from a place: those read, and 0 above the width. -/
theorem byteOf_wordOf_readBytes (f : Nat → Byte) (a : Nat) {n k : Nat} (hk : k < 4) :
    byteOf (wordOf (readBytes f a n)) k = if k < n then f (a + k) else 0 := by
  rw [byteOf_wordOf _ hk]
  split
  · rename_i h; exact readBytes_getD f a h
  · rename_i h; simp [readBytes, h]

theorem byteOf_zero (k : Nat) : byteOf 0 k = 0 := by simp [byteOf]

/-- What `MemRead` answers, said once (R53): in bounds and off the block edges it completes, and its bytes are the ones a data
read sees, with zeros above the width. -/
theorem memRead_spec {s : State} (hp : s.params.Ok) {a : Word} {w : Width} (hb : InArena s.params a.toNat w.bytes)
    (hs : ¬Straddles s.params a.toNat w.bytes) :
    ∃ u, memRead s a w = .ok u ∧ ∀ k < 4, byteOf u k = if k < w.bytes then guestByte s (a.toNat + k) else 0 := by
  have hl := (leavesArena_false_iff s a w.bytes).2 hb
  rcases plain_or_within hs with ho | ⟨e, he, hw⟩
  · refine ⟨_, by simp only [memRead, hl, place_of_outside ho]; rfl, fun k hk => ?_⟩
    rw [byteOf_wordOf_readBytes _ _ hk]
    split
    · rename_i h; rw [guestByte_plain ho h]
    · rfl
  · have hpl := fun (k : BlockKind) (b : Block) (h : e = (k, b)) =>
      place_of_within hp (h ▸ he) w.bytes_pos (show WithinBlock b a.toNat w.bytes by rw [h] at hw; exact hw)
    rcases mem_blocks.1 he with h | h | h | h | h | h
    · refine ⟨0, by simp only [memRead, hl, hpl _ _ h]; rfl, fun k hk => ?_⟩
      subst h; rw [byteOf_zero]; split
      · rename_i hk; exact (guestByte_log (hw k hk)).symm
      · rfl
    · refine ⟨_, by simp only [memRead, hl, hpl _ _ h]; rfl, fun k hk => ?_⟩
      subst h; rw [byteOf_wordOf_readBytes _ _ hk]; split
      · rename_i hk
        rw [guestByte_sensor hp (hw k hk), show a.toNat + k - s.params.ioMap.sensor.base
          = a.toNat - s.params.ioMap.sensor.base + k by have := (hw 0 w.bytes_pos).1; dsimp only at this; omega]
      · rfl
    · refine ⟨_, by simp only [memRead, hl, hpl _ _ h]; rfl, fun k hk => ?_⟩
      subst h; rw [byteOf_wordOf_readBytes _ _ hk]; split
      · rename_i hk
        rw [guestByte_act hp (hw k hk), show a.toNat + k - s.params.ioMap.act.base
          = a.toNat - s.params.ioMap.act.base + k by have := (hw 0 w.bytes_pos).1; dsimp only at this; omega]
      · rfl
    all_goals
      refine ⟨0, by simp only [memRead, hl, hpl _ _ h]; rfl, fun k hk => ?_⟩
      subst h; rw [byteOf_zero]; split
      · rename_i hk; exact (guestByte_reserved hp (by simp) (hw k hk)).symm
      · rfl

/-! ## What `MemRead` and `MemWrite` answer, place by place -/

theorem memRead_outOfBounds {s : State} {a : Word} {w : Width} (h : ¬InArena s.params a.toNat w.bytes) :
    memRead s a w = .error ⟨.outOfBounds, a⟩ := by
  have := (leavesArena_iff s a w.bytes).2 (Nat.lt_of_not_le h)
  simp [memRead, this]

theorem memRead_straddles {s : State} {a : Word} {w : Width} (hb : InArena s.params a.toNat w.bytes)
    (h : Straddles s.params a.toNat w.bytes) : memRead s a w = .error ⟨.misalignedDeviceAccess, a⟩ := by
  have := (leavesArena_false_iff s a w.bytes).2 hb
  simp [memRead, this, place_of_straddles h]

theorem memWrite_outOfBounds {s : State} {a : Word} {w : Width} (h : ¬InArena s.params a.toNat w.bytes) (v : Word) :
    memWrite s a w v = .error ⟨.outOfBounds, a⟩ := by
  have := (leavesArena_iff s a w.bytes).2 (Nat.lt_of_not_le h)
  simp [memWrite, this]

theorem memWrite_straddles {s : State} {a : Word} {w : Width} (hb : InArena s.params a.toNat w.bytes)
    (h : Straddles s.params a.toNat w.bytes) (v : Word) : memWrite s a w v = .error ⟨.misalignedDeviceAccess, a⟩ := by
  have := (leavesArena_false_iff s a w.bytes).2 hb
  simp [memWrite, this, place_of_straddles h]

theorem memWrite_plain {s : State} {a : Word} {w : Width} (hb : InArena s.params a.toNat w.bytes)
    (h : OutsideBlocks s.params a.toNat w.bytes) (v : Word) :
    memWrite s a w v = .ok (s.withMem (Memory.writeBytes s.mem a.toNat (bytesOf v w.bytes))) := by
  have := (leavesArena_false_iff s a w.bytes).2 hb
  simp [memWrite, this, place_of_outside h]

theorem memWrite_log {s : State} (hp : s.params.Ok) {a : Word} {w : Width}
    (h : WithinBlock s.params.ioMap.log a.toNat w.bytes) (v : Word) :
    memWrite s a w v = .ok (s.withLog (s.log ++ bytesOf v w.bytes)) := by
  have hm : (BlockKind.log, s.params.ioMap.log) ∈ s.params.ioMap.blocks := mem_blocks.2 (.inl rfl)
  have := (leavesArena_false_iff s a w.bytes).2 (inArena_of_within hp hm w.bytes_pos h)
  simp [memWrite, this, place_of_within hp hm w.bytes_pos h]

theorem memWrite_sensor {s : State} (hp : s.params.Ok) {a : Word} {w : Width}
    (h : WithinBlock s.params.ioMap.sensor a.toNat w.bytes) (v : Word) :
    memWrite s a w v = .error ⟨.readOnlyViolation, a⟩ := by
  have hm : (BlockKind.sensor, s.params.ioMap.sensor) ∈ s.params.ioMap.blocks := mem_blocks.2 (.inr (.inl rfl))
  have := (leavesArena_false_iff s a w.bytes).2 (inArena_of_within hp hm w.bytes_pos h)
  simp [memWrite, this, place_of_within hp hm w.bytes_pos h]

theorem memWrite_act {s : State} (hp : s.params.Ok) {a : Word} {w : Width}
    (h : WithinBlock s.params.ioMap.act a.toNat w.bytes) (v : Word) :
    memWrite s a w v
      = .ok (s.withAct (layBytes s.act (a.toNat - s.params.ioMap.act.base) (bytesOf v w.bytes))) := by
  have hm : (BlockKind.actuator, s.params.ioMap.act) ∈ s.params.ioMap.blocks := mem_blocks.2 (.inr (.inr (.inl rfl)))
  have := (leavesArena_false_iff s a w.bytes).2 (inArena_of_within hp hm w.bytes_pos h)
  simp [memWrite, this, place_of_within hp hm w.bytes_pos h]

theorem memWrite_reserved {s : State} (hp : s.params.Ok) {b : Block}
    (hb : b ∈ [s.params.ioMap.resD, s.params.ioMap.resE, s.params.ioMap.resF]) {a : Word} {w : Width}
    (h : WithinBlock b a.toNat w.bytes) (v : Word) : memWrite s a w v = .ok s := by
  have hm : (BlockKind.reserved, b) ∈ s.params.ioMap.blocks := by
    simp only [List.mem_cons, List.not_mem_nil, or_false] at hb
    rcases hb with rfl | rfl | rfl <;> simp [IoMap.blocks]
  have := (leavesArena_false_iff s a w.bytes).2 (inArena_of_within hp hm w.bytes_pos h)
  simp [memWrite, this, place_of_within hp hm w.bytes_pos h]

/-- A pc value is a valid target exactly when the check passes it (R195). -/
theorem checkTarget_none_iff_valid (s : State) (t : Word) : checkTarget s t = none ↔ ValidTarget s.params t := by
  rw [checkTarget_none_iff, aligned4_iff]

theorem checkTarget_of_invalid {s : State} {t : Word} (h : ¬ValidTarget s.params t) :
    checkTarget s t = some ⟨.invalidBranchTarget, t⟩ :=
  checkTarget_of_not (by rwa [aligned4_iff])

/-! ## The bytes of a read, put together -/

theorem wordOf_one (b0 : Byte) : wordOf [b0] = b0.setWidth 32 := by simp [wordOf]

/-- Two bytes read little-endian (R51). -/
theorem wordOf_two (b0 b1 : Byte) : wordOf [b0, b1] = (b1 ++ b0).setWidth 32 := by
  apply BitVec.eq_of_getLsbD_eq
  intro i hi
  rw [wordOf_getLsbD _ _ hi, BitVec.getLsbD_setWidth]
  simp only [hi, decide_true, Bool.true_and]
  by_cases h0 : i < 8
  · have h : i / 8 = 0 := by omega
    simp (disch := omega) only [h, getLsbD_append_low, List.getD_cons_zero]
    congr 1; omega
  · by_cases h1 : i < 16
    · have h : i / 8 = 1 := by omega
      simp (disch := omega) only [h, getLsbD_append_high, List.getD_cons_zero, List.getD_cons_succ]
      congr 1; omega
    · have h : ∃ k, i / 8 = k + 2 := ⟨i / 8 - 2, by omega⟩
      obtain ⟨k, h⟩ := h
      have c : 8 ≤ i - 8 := by omega
      simp (disch := omega) only [h, getLsbD_append_high, List.getD_cons_succ]
      simp [BitVec.getLsbD_of_ge _ _ c]

/-- Four bytes read little-endian (R51). -/
theorem wordOf_four (b0 b1 b2 b3 : Byte) : wordOf [b0, b1, b2, b3] = b3 ++ b2 ++ b1 ++ b0 := by
  apply BitVec.eq_of_getLsbD_eq
  intro i hi
  rw [wordOf_getLsbD _ _ hi]
  have h : i / 8 = 0 ∨ i / 8 = 1 ∨ i / 8 = 2 ∨ i / 8 = 3 := by omega
  rcases h with h | h | h | h <;>
    simp (disch := omega) only [h, getLsbD_append_low, getLsbD_append_high, List.getD_cons_zero, List.getD_cons_succ]
  all_goals (congr 1; omega)

theorem readBytes_one (f : Nat → Byte) (a : Nat) : readBytes f a 1 = [f a] := rfl

theorem readBytes_two (f : Nat → Byte) (a : Nat) : readBytes f a 2 = [f a, f (a + 1)] := rfl

theorem readBytes_four (f : Nat → Byte) (a : Nat) : readBytes f a 4 = [f a, f (a + 1), f (a + 2), f (a + 3)] := rfl

end Sys2Proof.Machine
end

