-- ==== Sys2Proof/Laws/Exec.lean ====
section
/-! SUPPORT. Everything an instruction and a step can do, said once (10_state.md rules R36, R37): every later case analysis
over the 37 instructions or over the branches of a step cites these. -/

namespace Sys2Proof.Machine

/-- The ways an executed instruction ends: a register written and the pc advanced; a store completed and the pc advanced; the
pc advanced alone (a branch not taken); a transfer to a checked target, with or without a link; a fault. -/
inductive Ending (s : State) : Result → Prop where
  | writes (rd : RegIdx) (v : Word) : Ending s (writeBack s rd v)
  | stores (a : Word) (w : Width) (v : Word) (u : State) (h : memWrite s a w v = .ok u) : Ending s (.next u.advance)
  | passes : Ending s (.next s.advance)
  | transfers (t : Word) (h : checkTarget s t = none) : Ending s (.next (s.setPc t))
  | links (rd : RegIdx) (t : Word) (h : checkTarget s t = none) : Ending s (.next ((s.writeReg rd s.nextPc).setPc t))
  | faults (r : Raise) : Ending s (raise s r)

theorem load_ending (w : Width) (ext : Word → Word) (rd rs1 : RegIdx) (imm : BitVec 12) (s : State) :
    Ending s (load w ext rd rs1 imm s) := by
  cases h : memRead s (effectiveAddress s rs1 imm) w with
  | ok v => rw [load_ok h]; exact .writes _ _
  | error r => rw [load_error h]; exact .faults _

theorem store_ending (w : Width) (rs1 rs2 : RegIdx) (imm : BitVec 12) (s : State) :
    Ending s (store w rs1 rs2 imm s) := by
  cases h : memWrite s (effectiveAddress s rs1 imm) w (s.readReg rs2) with
  | ok t => rw [store_ok h]; exact .stores _ _ _ _ h
  | error r => rw [store_error h]; exact .faults _

theorem branch_ending (c : Word → Word → Bool) (rs1 rs2 : RegIdx) (off : BitVec 13) (s : State) :
    Ending s (branch c rs1 rs2 off s) := by
  cases h : c (s.readReg rs1) (s.readReg rs2) with
  | false => rw [branch_not_taken h]; exact .passes
  | true =>
    cases ht : checkTarget s (branchTarget s off) with
    | none => rw [branch_taken h ht]; exact .transfers _ ht
    | some r => rw [branch_rejected h ht]; exact .faults _

theorem jumpAndLink_ending (rd : RegIdx) (t : Word) (s : State) : Ending s (jumpAndLink rd t s) := by
  cases h : checkTarget s t with
  | none => rw [jumpAndLink_ok h]; exact .links _ _ h
  | some r => rw [jumpAndLink_rejected h]; exact .faults _

/-- Every executed instruction ends in one of the ways of `Ending`. -/
theorem exec_ending (i : Instr) (s : State) : Ending s (exec i s) := by
  cases i with
  | lb _ _ _ | lh _ _ _ | lw _ _ _ | lbu _ _ _ | lhu _ _ _ => exact load_ending _ _ _ _ _ _
  | sb _ _ _ | sh _ _ _ | sw _ _ _ => exact store_ending _ _ _ _ _
  | beq _ _ _ | bne _ _ _ | blt _ _ _ | bltu _ _ _ => exact branch_ending _ _ _ _ _
  | bge _ _ _ => exact branch_ending (fun a b => !lessSigned a b) _ _ _ _
  | bgeu _ _ _ => exact branch_ending (fun a b => !lessUnsigned a b) _ _ _ _
  | jal _ _ | jalr _ _ _ => exact jumpAndLink_ending _ _ _
  | _ => exact .writes _ _

/-! ## What every ending leaves -/

theorem Ending.next {s : State} {o : Result} (h : Ending s o) : ∃ t, o = .next t := by
  cases h <;> exact ⟨_, rfl⟩

/-- Every executed instruction answers a next state: a fault is one too (R258). -/
theorem exec_next (i : Instr) (s : State) : ∃ t, exec i s = .next t := (exec_ending i s).next

/-- What a next state of an ending is: the cases of `Ending`, with the state named. -/
theorem Ending.next_cases {s t : State} {o : Result} (h : Ending s o) (ho : o = .next t) :
    (∃ rd v, t = (s.writeReg rd v).advance) ∨
    (∃ a w v u, memWrite s a w v = .ok u ∧ t = u.advance) ∨
    t = s.advance ∨
    (∃ a, checkTarget s a = none ∧ t = s.setPc a) ∨
    (∃ rd a, checkTarget s a = none ∧ t = (s.writeReg rd s.nextPc).setPc a) ∨
    (∃ r, t = s.takeFault r) := by
  cases h with
  | writes rd v => injection ho with ho; exact .inl ⟨rd, v, ho.symm⟩
  | stores a w v u hu => injection ho with ho; exact .inr (.inl ⟨a, w, v, u, hu, ho.symm⟩)
  | passes => injection ho with ho; exact .inr (.inr (.inl ho.symm))
  | transfers a ha => injection ho with ho; exact .inr (.inr (.inr (.inl ⟨a, ha, ho.symm⟩)))
  | links rd a ha => injection ho with ho; exact .inr (.inr (.inr (.inr (.inl ⟨rd, a, ha, ho.symm⟩))))
  | faults r => injection ho with ho; exact .inr (.inr (.inr (.inr (.inr ⟨r, ho.symm⟩))))

/-- Everything a step of a `Running` Hart can do: fault at the fetch, fault at the decode, or execute (R36). -/
theorem step_running {s : State} (h : s.run = .running) :
    (∃ r, fetch s = .error r ∧ step s = raise s r) ∨
    (∃ inst c, fetch s = .ok inst ∧ decode inst = .error c ∧ step s = raise s ⟨.illegalInstruction, inst⟩) ∨
    (∃ inst i, fetch s = .ok inst ∧ decode inst = .ok i ∧ step s = exec i s) := by
  unfold step
  rw [h]
  cases hf : fetch s with
  | error r => exact .inl ⟨r, rfl, rfl⟩
  | ok inst =>
    refine .inr ?_
    cases hd : decode inst with
    | error c => exact .inl ⟨inst, c, rfl, hd, by simp [hd]⟩
    | ok i => exact .inr ⟨inst, i, rfl, hd, by simp [hd]⟩

/-- A step that answers a next state was a step of a `Running` Hart (R30). -/
theorem running_of_step {s t : State} (h : step s = .next t) : s.run = .running := by
  unfold step at h
  cases hr : s.run with
  | running => rfl
  | faulted => simp [hr] at h

end Sys2Proof.Machine
end

