-- ==== Sys2Proof/Laws/Frames.lean ====
section
/-! SUPPORT. The shapes of the meanings in the terms of Safety.lean: what a write-back, a link and a step leave, and the sums
of addresses and targets as integers (10_state.md R22, R25; 44_branches.md R202; 45_jumps.md R210, R211). -/

namespace Sys2Proof.Machine

/-- What an instruction that writes `v` to `rd` and goes on in sequence leaves. -/
theorem writesRegAndAdvances_writeBack (s : State) (rd : RegIdx) (v : Word) :
    WritesRegAndAdvances s ((s.writeReg rd v).advance) rd v := by
  refine ⟨⟨?_, fun r h => ?_, ⟨fun _ => rfl, rfl, rfl, rfl⟩, rfl, rfl, rfl⟩, rfl⟩
  · simp only [State.advance_readReg, State.readReg_writeReg]
    by_cases h : rd = 0#5 <;> simp [h]
  · simp [State.readReg_writeReg_ne s h]

/-- What a jump to `t` that links to `rd` leaves. -/
theorem writesReg_link (s : State) (rd : RegIdx) (t : Word) :
    WritesReg s ((s.writeReg rd s.nextPc).setPc t) rd (s.pc + 4) := by
  refine ⟨?_, fun r h => ?_, ⟨fun _ => rfl, rfl, rfl, rfl⟩, rfl, rfl, rfl⟩
  · simp only [State.setPc_readReg, State.readReg_writeReg]
    by_cases h : rd = 0#5 <;> simp [h, State.nextPc]
  · simp [State.readReg_writeReg_ne s h]

/-- A sum with a sign-extended field is the integer sum, modulo 2^32. -/
theorem add_sextImm {n : Nat} (hn : n ≤ 32) (a : Word) (o : BitVec n) :
    a + sextImm o = BitVec.ofInt 32 (a.toNat + o.toInt) := by
  apply BitVec.eq_of_toInt_eq
  rw [BitVec.toInt_add, BitVec.toInt_ofInt, sextImm, BitVec.toInt_signExtend_of_le hn, BitVec.toInt_eq_toNat_bmod a,
    Int.bmod_add_bmod]

theorem branchTarget_eq (s : State) (off : BitVec 13) : branchTarget s off = pcPlus s off.toInt :=
  add_sextImm (by decide) _ _

theorem jalTarget_eq (s : State) (off : BitVec 21) : jalTarget s off = pcPlus s off.toInt :=
  add_sextImm (by decide) _ _

/-- The mask of R211 rounds down to an even number. -/
theorem toNat_and_even (w : Word) : (w &&& 0xFFFFFFFE).toNat = w.toNat / 2 * 2 := by
  have mask : ∀ i < 32, (0xFFFFFFFE : Nat).testBit i = decide (1 ≤ i) := by decide
  have shift : w.toNat / 2 * 2 = (w.toNat >>> 1) <<< 1 := by simp [Nat.shiftRight_eq_div_pow, Nat.shiftLeft_eq]
  rw [BitVec.toNat_and]
  apply Nat.eq_of_testBit_eq
  intro i
  rw [shift, Nat.testBit_and, Nat.testBit_shiftLeft, Nat.testBit_shiftRight]
  by_cases h : i < 32
  · rw [show (0xFFFFFFFE : Word).toNat = 0xFFFFFFFE from rfl, mask i h]
    by_cases h1 : 1 ≤ i <;> simp [h1]
  · have h0 : w.toNat.testBit i = false :=
      Nat.testBit_lt_two_pow (Nat.lt_of_lt_of_le w.isLt (Nat.pow_le_pow_right (by decide) (by omega)))
    rw [h0, show 1 + (i - 1) = i by omega, h0]
    simp

/-- Everything a step that answers a next state did: it raised a fault before executing, or executed an instruction (R36). -/
theorem step_next {s t : State} (h : step s = .next t) :
    (∃ r, t = s.takeFault r) ∨ ∃ w i, fetch s = .ok w ∧ decode w = .ok i ∧ exec i s = .next t := by
  obtain ⟨r, _, e⟩ | ⟨w, c, _, _, e⟩ | ⟨w, i, h1, h2, e⟩ := step_running (running_of_step h)
  · rw [e] at h; injection h with h; exact .inl ⟨_, h.symm⟩
  · rw [e] at h; injection h with h; exact .inl ⟨_, h.symm⟩
  · rw [e] at h; exact .inr ⟨w, i, h1, h2, h⟩

end Sys2Proof.Machine
end

