-- ==== Sys2Proof/Laws/PerInstr.lean ====
section
/-! SUPPORT. The statement made for each instruction as syntax: `inst[1:0]` of its word is `11`, as of every instruction of 32
bits (30_encoding.md rule R90). -/

/-- The two low bits of the instruction's word are `11` (R90). -/
def Sys2Proof.Laws.LowBits.Statement (i : Sys2Proof.Instr) : Prop :=
  (Sys2Proof.encode i).extractLsb' 0 2 = 0b11#2

namespace Sys2Proof

theorem Laws.LowBits.add (rd rs1 rs2 : RegIdx) : Laws.LowBits.Statement (.add rd rs1 rs2) := by
  simp [Laws.LowBits.Statement, encode, lowBits_eq]

theorem Laws.LowBits.sub (rd rs1 rs2 : RegIdx) : Laws.LowBits.Statement (.sub rd rs1 rs2) := by
  simp [Laws.LowBits.Statement, encode, lowBits_eq]

theorem Laws.LowBits.sll (rd rs1 rs2 : RegIdx) : Laws.LowBits.Statement (.sll rd rs1 rs2) := by
  simp [Laws.LowBits.Statement, encode, lowBits_eq]

theorem Laws.LowBits.slt (rd rs1 rs2 : RegIdx) : Laws.LowBits.Statement (.slt rd rs1 rs2) := by
  simp [Laws.LowBits.Statement, encode, lowBits_eq]

theorem Laws.LowBits.sltu (rd rs1 rs2 : RegIdx) : Laws.LowBits.Statement (.sltu rd rs1 rs2) := by
  simp [Laws.LowBits.Statement, encode, lowBits_eq]

theorem Laws.LowBits.xor (rd rs1 rs2 : RegIdx) : Laws.LowBits.Statement (.xor rd rs1 rs2) := by
  simp [Laws.LowBits.Statement, encode, lowBits_eq]

theorem Laws.LowBits.srl (rd rs1 rs2 : RegIdx) : Laws.LowBits.Statement (.srl rd rs1 rs2) := by
  simp [Laws.LowBits.Statement, encode, lowBits_eq]

theorem Laws.LowBits.sra (rd rs1 rs2 : RegIdx) : Laws.LowBits.Statement (.sra rd rs1 rs2) := by
  simp [Laws.LowBits.Statement, encode, lowBits_eq]

theorem Laws.LowBits.or (rd rs1 rs2 : RegIdx) : Laws.LowBits.Statement (.or rd rs1 rs2) := by
  simp [Laws.LowBits.Statement, encode, lowBits_eq]

theorem Laws.LowBits.and (rd rs1 rs2 : RegIdx) : Laws.LowBits.Statement (.and rd rs1 rs2) := by
  simp [Laws.LowBits.Statement, encode, lowBits_eq]

theorem Laws.LowBits.addi (rd rs1 : RegIdx) (imm : BitVec 12) : Laws.LowBits.Statement (.addi rd rs1 imm) := by
  simp [Laws.LowBits.Statement, encode, lowBits_eq]

theorem Laws.LowBits.slti (rd rs1 : RegIdx) (imm : BitVec 12) : Laws.LowBits.Statement (.slti rd rs1 imm) := by
  simp [Laws.LowBits.Statement, encode, lowBits_eq]

theorem Laws.LowBits.sltiu (rd rs1 : RegIdx) (imm : BitVec 12) : Laws.LowBits.Statement (.sltiu rd rs1 imm) := by
  simp [Laws.LowBits.Statement, encode, lowBits_eq]

theorem Laws.LowBits.xori (rd rs1 : RegIdx) (imm : BitVec 12) : Laws.LowBits.Statement (.xori rd rs1 imm) := by
  simp [Laws.LowBits.Statement, encode, lowBits_eq]

theorem Laws.LowBits.ori (rd rs1 : RegIdx) (imm : BitVec 12) : Laws.LowBits.Statement (.ori rd rs1 imm) := by
  simp [Laws.LowBits.Statement, encode, lowBits_eq]

theorem Laws.LowBits.andi (rd rs1 : RegIdx) (imm : BitVec 12) : Laws.LowBits.Statement (.andi rd rs1 imm) := by
  simp [Laws.LowBits.Statement, encode, lowBits_eq]

theorem Laws.LowBits.slli (rd rs1 : RegIdx) (shamt : BitVec 5) : Laws.LowBits.Statement (.slli rd rs1 shamt) := by
  simp [Laws.LowBits.Statement, encode, lowBits_eq]

theorem Laws.LowBits.srli (rd rs1 : RegIdx) (shamt : BitVec 5) : Laws.LowBits.Statement (.srli rd rs1 shamt) := by
  simp [Laws.LowBits.Statement, encode, lowBits_eq]

theorem Laws.LowBits.srai (rd rs1 : RegIdx) (shamt : BitVec 5) : Laws.LowBits.Statement (.srai rd rs1 shamt) := by
  simp [Laws.LowBits.Statement, encode, lowBits_eq]

theorem Laws.LowBits.lb (rd rs1 : RegIdx) (imm : BitVec 12) : Laws.LowBits.Statement (.lb rd rs1 imm) := by
  simp [Laws.LowBits.Statement, encode, lowBits_eq]

theorem Laws.LowBits.lh (rd rs1 : RegIdx) (imm : BitVec 12) : Laws.LowBits.Statement (.lh rd rs1 imm) := by
  simp [Laws.LowBits.Statement, encode, lowBits_eq]

theorem Laws.LowBits.lw (rd rs1 : RegIdx) (imm : BitVec 12) : Laws.LowBits.Statement (.lw rd rs1 imm) := by
  simp [Laws.LowBits.Statement, encode, lowBits_eq]

theorem Laws.LowBits.lbu (rd rs1 : RegIdx) (imm : BitVec 12) : Laws.LowBits.Statement (.lbu rd rs1 imm) := by
  simp [Laws.LowBits.Statement, encode, lowBits_eq]

theorem Laws.LowBits.lhu (rd rs1 : RegIdx) (imm : BitVec 12) : Laws.LowBits.Statement (.lhu rd rs1 imm) := by
  simp [Laws.LowBits.Statement, encode, lowBits_eq]

theorem Laws.LowBits.sb (rs1 rs2 : RegIdx) (imm : BitVec 12) : Laws.LowBits.Statement (.sb rs1 rs2 imm) := by
  simp [Laws.LowBits.Statement, encode, lowBits_eq]

theorem Laws.LowBits.sh (rs1 rs2 : RegIdx) (imm : BitVec 12) : Laws.LowBits.Statement (.sh rs1 rs2 imm) := by
  simp [Laws.LowBits.Statement, encode, lowBits_eq]

theorem Laws.LowBits.sw (rs1 rs2 : RegIdx) (imm : BitVec 12) : Laws.LowBits.Statement (.sw rs1 rs2 imm) := by
  simp [Laws.LowBits.Statement, encode, lowBits_eq]

theorem Laws.LowBits.beq (rs1 rs2 : RegIdx) (off : BitVec 13) : Laws.LowBits.Statement (.beq rs1 rs2 off) := by
  simp [Laws.LowBits.Statement, encode, lowBits_eq]

theorem Laws.LowBits.bne (rs1 rs2 : RegIdx) (off : BitVec 13) : Laws.LowBits.Statement (.bne rs1 rs2 off) := by
  simp [Laws.LowBits.Statement, encode, lowBits_eq]

theorem Laws.LowBits.blt (rs1 rs2 : RegIdx) (off : BitVec 13) : Laws.LowBits.Statement (.blt rs1 rs2 off) := by
  simp [Laws.LowBits.Statement, encode, lowBits_eq]

theorem Laws.LowBits.bge (rs1 rs2 : RegIdx) (off : BitVec 13) : Laws.LowBits.Statement (.bge rs1 rs2 off) := by
  simp [Laws.LowBits.Statement, encode, lowBits_eq]

theorem Laws.LowBits.bltu (rs1 rs2 : RegIdx) (off : BitVec 13) : Laws.LowBits.Statement (.bltu rs1 rs2 off) := by
  simp [Laws.LowBits.Statement, encode, lowBits_eq]

theorem Laws.LowBits.bgeu (rs1 rs2 : RegIdx) (off : BitVec 13) : Laws.LowBits.Statement (.bgeu rs1 rs2 off) := by
  simp [Laws.LowBits.Statement, encode, lowBits_eq]

theorem Laws.LowBits.jal (rd : RegIdx) (off : BitVec 21) : Laws.LowBits.Statement (.jal rd off) := by
  simp [Laws.LowBits.Statement, encode, lowBits_eq]

theorem Laws.LowBits.jalr (rd rs1 : RegIdx) (imm : BitVec 12) : Laws.LowBits.Statement (.jalr rd rs1 imm) := by
  simp [Laws.LowBits.Statement, encode, lowBits_eq]

theorem Laws.LowBits.lui (rd : RegIdx) (imm20 : BitVec 20) : Laws.LowBits.Statement (.lui rd imm20) := by
  simp [Laws.LowBits.Statement, encode, lowBits_eq]

theorem Laws.LowBits.auipc (rd : RegIdx) (imm20 : BitVec 20) : Laws.LowBits.Statement (.auipc rd imm20) := by
  simp [Laws.LowBits.Statement, encode, lowBits_eq]

end Sys2Proof
end

