-- ==== Sys2Proof/Tests/Slice0.lean ====
section
/-! SUPPORT. Own tests: the well-formedness checks, each constructor's word written out from the spec, one small step for each
instruction (95_test_vectors.md and the examples of the instruction files; fixture T0), and a witness for the hypotheses of
each statement. Every expected value stands in the spec at the place named. -/

namespace Sys2Proof.Tests

open Sys2Proof.Machine

/-! ## Helpers -/

/-- A Hart of fixture T0 at `pc`, with the word there, the registers and the memory bytes given, all else as constructed. -/
def hart (pc : Word) (word : Nat) (regs : List (RegIdx × Word)) (cells : List Host.Cell) : State :=
  (regs.foldl (fun s r => s.writeReg r.1 r.2)
    (cells.foldl (fun s c => s.withMem (Memory.write s.mem c.1 c.2))
      (State.construct Config.fixtureT0 [] pc))).withFetchWord 32 word

/-- The state after one step, if the step answers one. -/
def stepped (s : State) : Option State :=
  match step s with
  | .next t    => some t
  | .fault _   => none
  | .refused _ => none

/-- `x[i]` and the pc after one step that leaves the Hart `Running`. -/
def regAndPc (i : RegIdx) (s : State) : Option (Word × Word) :=
  match stepped s with
  | some t => if t.run = .running then some (t.readReg i, t.pc) else none
  | none   => none

/-- The fault record and `x[i]` after one step that leaves the Hart `Faulted` with its pc unchanged. -/
def recordAndReg (i : RegIdx) (s : State) : Option (FaultRecord × Word) :=
  match stepped s with
  | some t => if t.run = .faulted ∧ t.pc = s.pc then t.fault.map (fun r => (r, t.readReg i)) else none
  | none   => none

/-- The memory bytes `a .. a+n-1` and the pc after one step that leaves the Hart `Running`. -/
def memAndPc (a n : Nat) (s : State) : Option (List Byte × Word) :=
  match stepped s with
  | some t => if t.run = .running then some (readBytes (Memory.read t.mem) a n, t.pc) else none
  | none   => none

/-- Data bytes of table 2.3a: `mem[0x2000..0x2007] = 80 FF 7F 01 EF BE AD DE`. -/
def bytes23a : List Host.Cell :=
  [(0x2000, 0x80), (0x2001, 0xFF), (0x2002, 0x7F), (0x2003, 0x01), (0x2004, 0xEF), (0x2005, 0xBE), (0x2006, 0xAD),
   (0x2007, 0xDE)]

/-! ## Well-formedness: an odd offset in each instruction that has one is refused (R100, R102) -/

theorem test_illformed_beq : (Instr.beq 1 2 3).wellFormed = false := by decide
theorem test_illformed_bne : (Instr.bne 1 2 3).wellFormed = false := by decide
theorem test_illformed_blt : (Instr.blt 1 2 3).wellFormed = false := by decide
theorem test_illformed_bge : (Instr.bge 1 2 3).wellFormed = false := by decide
theorem test_illformed_bltu : (Instr.bltu 1 2 3).wellFormed = false := by decide
theorem test_illformed_bgeu : (Instr.bgeu 1 2 3).wellFormed = false := by decide
theorem test_illformed_jal : (Instr.jal 1 3).wellFormed = false := by decide
theorem test_wellformed_even : (Instr.beq 1 2 (-4096)).wellFormed = true ∧ (Instr.jal 1 (-1048576)).wellFormed = true := by decide

/-! ## Decoding: a word of each constructor, from the tables 2.1 to 2.7 -/

theorem test_decode_register_register_a :
    decode 0x002081B3 = .ok (.add 3 1 2) ∧
    decode 0x402081B3 = .ok (.sub 3 1 2) ∧
    decode 0x002091B3 = .ok (.sll 3 1 2) ∧
    decode 0x0020A1B3 = .ok (.slt 3 1 2) ∧
    decode 0x0020B1B3 = .ok (.sltu 3 1 2) := by decide

theorem test_decode_register_register_b :
    decode 0x0020C1B3 = .ok (.xor 3 1 2) ∧
    decode 0x0020D1B3 = .ok (.srl 3 1 2) ∧
    decode 0x4020D1B3 = .ok (.sra 3 1 2) ∧
    decode 0x0020E1B3 = .ok (.or 3 1 2) ∧
    decode 0x0020F1B3 = .ok (.and 3 1 2) := by decide

theorem test_decode_register_immediate :
    decode 0x80008193 = .ok (.addi 3 1 (-2048)) ∧
    decode 0xFFF0A193 = .ok (.slti 3 1 (-1)) ∧
    decode 0x8000B193 = .ok (.sltiu 3 1 (-2048)) ∧
    decode 0x7FF0C193 = .ok (.xori 3 1 2047) ∧
    decode 0x7FF0E193 = .ok (.ori 3 1 2047) ∧
    decode 0xFF00F193 = .ok (.andi 3 1 (-16)) := by decide

theorem test_decode_shift_immediate :
    decode 0x01F09193 = .ok (.slli 3 1 31) ∧
    decode 0x01F0D193 = .ok (.srli 3 1 31) ∧
    decode 0x41F0D193 = .ok (.srai 3 1 31) := by decide

theorem test_decode_loads :
    decode 0xFFF08183 = .ok (.lb 3 1 (-1)) ∧
    decode 0x00209183 = .ok (.lh 3 1 2) ∧
    decode 0xFFC0A183 = .ok (.lw 3 1 (-4)) ∧
    decode 0x0010C183 = .ok (.lbu 3 1 1) ∧
    decode 0x0030D183 = .ok (.lhu 3 1 3) := by decide

theorem test_decode_stores :
    decode 0x002081A3 = .ok (.sb 1 2 3) ∧
    decode 0x002090A3 = .ok (.sh 1 2 1) ∧
    decode 0xFE20AC23 = .ok (.sw 1 2 (-8)) := by decide

theorem test_decode_branches :
    decode 0xF02080E3 = .ok (.beq 1 2 (-256)) ∧
    decode 0x7E209FE3 = .ok (.bne 1 2 4094) ∧
    decode 0x8020C063 = .ok (.blt 1 2 (-4096)) ∧
    decode 0x0020D863 = .ok (.bge 1 2 16) ∧
    decode 0x0020E863 = .ok (.bltu 1 2 16) ∧
    decode 0x0020F063 = .ok (.bgeu 1 2 0) := by decide

theorem test_decode_jumps :
    decode 0x7FFFF2EF = .ok (.jal 5 1048574) ∧
    decode 0xEFDFF0EF = .ok (.jal 1 (-260)) ∧
    decode 0x800280E7 = .ok (.jalr 1 5 (-2048)) := by decide

theorem test_decode_upper_immediate :
    decode 0x80000197 = .ok (.auipc 3 0x80000) ∧
    decode 0xFFFFF1B7 = .ok (.lui 3 0xFFFFF) := by decide

/-- The words are the ones the encoder gives, too: a branch and a jump with every scattered bit in use. -/
theorem test_encode : encode (.bne 1 2 4094) = 0x7E209FE3 ∧ encode (.jal 1 (-260)) = 0xEFDFF0EF ∧
    encode (.sw 1 2 (-8)) = 0xFE20AC23 := by decide

/-- Words put together bit by bit from the spec's formats (R92 to R97), one of each family: the fields in the order of the
format, the scattered immediates by their pieces. -/
theorem test_decode_bits_register_register :
    decode (0b0000000#7 ++ 0b00010#5 ++ 0b00001#5 ++ 0b000#3 ++ 0b00011#5 ++ 0b0110011#7) = .ok (.add 3 1 2) := by decide
theorem test_decode_bits_register_immediate :
    decode (0b111111111101#12 ++ 0b00101#5 ++ 0b000#3 ++ 0b00101#5 ++ 0b0010011#7) = .ok (.addi 5 5 (-3)) := by decide
theorem test_decode_bits_shift_immediate :
    decode (0b0100000#7 ++ 0b00100#5 ++ 0b00001#5 ++ 0b101#3 ++ 0b00011#5 ++ 0b0010011#7) = .ok (.srai 3 1 4) := by decide
theorem test_decode_bits_load :
    decode (0b111111111100#12 ++ 0b00001#5 ++ 0b010#3 ++ 0b00011#5 ++ 0b0000011#7) = .ok (.lw 3 1 (-4)) := by decide
theorem test_decode_bits_store :
    decode (0b1111111#7 ++ 0b00010#5 ++ 0b00001#5 ++ 0b010#3 ++ 0b11000#5 ++ 0b0100011#7) = .ok (.sw 1 2 (-8)) := by decide
theorem test_decode_bits_branch :
    decode (0b1#1 ++ 0b111111#6 ++ 0b00010#5 ++ 0b00001#5 ++ 0b001#3 ++ 0b1110#4 ++ 0b1#1 ++ 0b1100011#7)
      = .ok (.bne 1 2 (-4)) := by decide
theorem test_decode_bits_jal :
    decode (0b1#1 ++ 0b1101111110#10 ++ 0b1#1 ++ 0b11111111#8 ++ 0b00001#5 ++ 0b1101111#7) = .ok (.jal 1 (-260)) := by decide
theorem test_decode_bits_jalr :
    decode (0b000000000100#12 ++ 0b00101#5 ++ 0b000#3 ++ 0b00001#5 ++ 0b1100111#7) = .ok (.jalr 1 5 4) := by decide
theorem test_decode_bits_upper_immediate :
    decode (0b00010010001101000101#20 ++ 0b00011#5 ++ 0b0110111#7) = .ok (.lui 3 0x12345) := by decide

/-- The bytes of a word, in increasing address order (R90), with the bytes after it handed back; three bytes are no word. -/
theorem test_decode_bytes : decodeBytes [0xB3, 0x81, 0x20, 0x00, 0x99] = .ok (.add 3 1 2, [0x99]) ∧
    decodeBytes [0xB3, 0x81, 0x20] = .error .truncated := by decide

/-- A row of the opcode table by its number: ADD's match bits read as `add x0, x0, x0`. -/
theorem test_decode_table_word : decodeTableWord 32 0x33 = some (.add 0 0 0) ∧ decodeTableWord 32 0 = none := by decide

/-! ## Words that are no instruction (table 2.8) -/

theorem test_class_c :
    decode 0x00000000 = .error (.illegal .c) ∧ decode 0x00010001 = .error (.illegal .c) ∧
    decode 0x00300291 = .error (.illegal .c) ∧
    decode 0x00300292 = .error (.illegal .c) := by decide
theorem test_class_fence :
    decode 0x0FF0000F = .error (.illegal .fence) ∧ decode 0x0000100F = .error (.illegal .fence) := by decide
theorem test_class_zicsrSystem :
    decode 0x00000073 = .error (.illegal .zicsrSystem) ∧ decode 0x00100073 = .error (.illegal .zicsrSystem) ∧
    decode 0xB00022F3 = .error (.illegal .zicsrSystem) ∧
    decode 0x30200073 = .error (.illegal .zicsrSystem) ∧
    decode 0x10500073 = .error (.illegal .zicsrSystem) := by decide
theorem test_class_m :
    decode 0x022081B3 = .error (.illegal .m) ∧ decode 0x0220C1B3 = .error (.illegal .m) ∧
    decode 0x0220F1B3 = .error (.illegal .m) := by decide
theorem test_class_a :
    decode 0x1000A1AF = .error (.illegal .a) ∧ decode 0x0020A1AF = .error (.illegal .a) := by decide
theorem test_class_fd :
    decode 0x0000A187 = .error (.illegal .fd) ∧ decode 0x0020A027 = .error (.illegal .fd) ∧
    decode 0x0020F1D3 = .error (.illegal .fd) ∧
    decode 0x2020F1C3 = .error (.illegal .fd) := by decide
theorem test_class_unknown :
    decode 0xFFFFFFFF = .error (.illegal .unknown) ∧
    decode 0x002081BB = .error (.illegal .unknown) ∧
    decode 0x0000B183 = .error (.illegal .unknown) ∧
    decode 0x0020B023 = .error (.illegal .unknown) := by decide
theorem test_class_unknown_functions :
    decode 0x402091B3 = .error (.illegal .unknown) ∧
    decode 0x042081B3 = .error (.illegal .unknown) ∧
    decode 0x02009193 = .error (.illegal .unknown) ∧
    decode 0x6040D193 = .error (.illegal .unknown) := by decide
theorem test_class_unknown_more :
    decode 0x0020A463 = .error (.illegal .unknown) ∧
    decode 0x000290E7 = .error (.illegal .unknown) ∧
    decode 0x0000000B = .error (.illegal .unknown) ∧
    decode 0x0000001F = .error (.illegal .unknown) := by decide

/-! ## One step of each instruction -/

theorem test_add_overflows : regAndPc 3 (hart 0x100 0x002081B3 [(1, 0x7FFFFFFF), (2, 1)] []) = some (0x80000000, 0x104) := by decide
theorem test_add_wraps : regAndPc 3 (hart 0x100 0x002081B3 [(1, 0xFFFFFFFF), (2, 1)] []) = some (0, 0x104) := by decide
theorem test_sub_borrows : regAndPc 3 (hart 0x100 0x402081B3 [(1, 0), (2, 1)] []) = some (0xFFFFFFFF, 0x104) := by decide
theorem test_sll_masks_amount : regAndPc 3 (hart 0x100 0x002091B3 [(1, 0xFFFFFFFF), (2, 0xFFFFFFE4)] []) = some (0xFFFFFFF0, 0x104) := by decide
theorem test_slt_extremes : regAndPc 3 (hart 0x100 0x0020A1B3 [(1, 0x80000000), (2, 0x7FFFFFFF)] []) = some (1, 0x104) := by decide
theorem test_sltu_extremes : regAndPc 3 (hart 0x100 0x0020B1B3 [(1, 0x80000000), (2, 0x7FFFFFFF)] []) = some (0, 0x104) := by decide
theorem test_xor : regAndPc 3 (hart 0x100 0x0020C1B3 [(1, 0xAAAAAAAA), (2, 0xFFFFFFFF)] []) = some (0x55555555, 0x104) := by decide
theorem test_srl_masks_amount : regAndPc 3 (hart 0x100 0x0020D1B3 [(1, 0xFFFFFFFF), (2, 0x24)] []) = some (0x0FFFFFFF, 0x104) := by decide
theorem test_sra_fills : regAndPc 3 (hart 0x100 0x4020D1B3 [(1, 0x80000000), (2, 31)] []) = some (0xFFFFFFFF, 0x104) := by decide
theorem test_sra_masks_amount : regAndPc 3 (hart 0x100 0x4020D1B3 [(1, 0xFFFFFFF0), (2, 0x22)] []) = some (0xFFFFFFFC, 0x104) := by decide
theorem test_or : regAndPc 3 (hart 0x100 0x0020E1B3 [(1, 0xAAAAAAAA), (2, 0x55555555)] []) = some (0xFFFFFFFF, 0x104) := by decide
theorem test_and : regAndPc 3 (hart 0x100 0x0020F1B3 [(1, 0xFFFF0000), (2, 0x0FF00FF0)] []) = some (0x0FF00000, 0x104) := by decide
theorem test_add_same_register : regAndPc 1 (hart 0x100 0x001080B3 [(1, 0x40000000)] []) = some (0x80000000, 0x104) := by decide
theorem test_add_x0_dropped : regAndPc 0 (hart 0x100 0x00208033 [(1, 5), (2, 6)] []) = some (0, 0x104) := by decide
theorem test_addi_lowest : regAndPc 3 (hart 0x100 0x80008193 [(1, 0)] []) = some (0xFFFFF800, 0x104) := by decide
theorem test_addi_wraps : regAndPc 3 (hart 0x100 0x00108193 [(1, 0xFFFFFFFF)] []) = some (0, 0x104) := by decide
theorem test_slti_signed : regAndPc 3 (hart 0x100 0x8000A193 [(1, 0x80000000)] []) = some (1, 0x104) := by decide
theorem test_sltiu_extends_first : regAndPc 3 (hart 0x100 0x8000B193 [(1, 0xFFFFF7FF)] []) = some (1, 0x104) := by decide
theorem test_sltiu_equal : regAndPc 3 (hart 0x100 0xFFF0B193 [(1, 0xFFFFFFFF)] []) = some (0, 0x104) := by decide
theorem test_xori_not : regAndPc 3 (hart 0x100 0xFFF0C193 [(1, 0x12345678)] []) = some (0xEDCBA987, 0x104) := by decide
theorem test_ori_extends : regAndPc 3 (hart 0x100 0x8000E193 [(1, 0)] []) = some (0xFFFFF800, 0x104) := by decide
theorem test_andi : regAndPc 3 (hart 0x100 0xFF00F193 [(1, 0x12345678)] []) = some (0x12345670, 0x104) := by decide
theorem test_slli_31 : regAndPc 3 (hart 0x100 0x01F09193 [(1, 1)] []) = some (0x80000000, 0x104) := by decide
theorem test_srli_31 : regAndPc 3 (hart 0x100 0x01F0D193 [(1, 0x80000000)] []) = some (1, 0x104) := by decide
theorem test_srai_31 : regAndPc 3 (hart 0x100 0x41F0D193 [(1, 0x80000000)] []) = some (0xFFFFFFFF, 0x104) := by decide
theorem test_srai_16 : regAndPc 3 (hart 0x100 0x4100D193 [(1, 0xFFFF0000)] []) = some (0xFFFFFFFF, 0x104) := by decide
theorem test_lb_extends : regAndPc 3 (hart 0x100 0x00008183 [(1, 0x2000), (3, 0x99)] bytes23a) = some (0xFFFFFF80, 0x104) := by decide
theorem test_lbu : regAndPc 3 (hart 0x100 0x0010C183 [(1, 0x2000), (3, 0x99)] bytes23a) = some (0xFF, 0x104) := by decide
theorem test_lh_misaligned : regAndPc 3 (hart 0x100 0x00109183 [(1, 0x2000), (3, 0x99)] bytes23a) = some (0x7FFF, 0x104) := by decide
theorem test_lh_extends : regAndPc 3 (hart 0x100 0x00009183 [(1, 0x2000), (3, 0x99)] bytes23a) = some (0xFFFFFF80, 0x104) := by decide
theorem test_lhu_crosses_word : regAndPc 3 (hart 0x100 0x0030D183 [(1, 0x2000), (3, 0x99)] bytes23a) = some (0xEF01, 0x104) := by decide
theorem test_lw : regAndPc 3 (hart 0x100 0x0040A183 [(1, 0x2000), (3, 0x99)] bytes23a) = some (0xDEADBEEF, 0x104) := by decide
theorem test_lw_misaligned : regAndPc 3 (hart 0x100 0x0010A183 [(1, 0x2000), (3, 0x99)] bytes23a) = some (0xEF017FFF, 0x104) := by decide

theorem test_sb : memAndPc 0x2002 3 (hart 0x100 0x002081A3 [(1, 0x2000), (2, 0xDEADBEEF)] [(0x2002, 0x11), (0x2004, 0x11)])
    = some ([0x11, 0xEF, 0x11], 0x104) := by decide
theorem test_sh_misaligned : memAndPc 0x2000 4
    (hart 0x100 0x002090A3 [(1, 0x2000), (2, 0xDEADBEEF)] [(0x2000, 0x11), (0x2003, 0x11)])
    = some ([0x11, 0xEF, 0xBE, 0x11], 0x104) := by decide
theorem test_sw_negative : memAndPc 0x2000 5 (hart 0x100 0xFE20AC23 [(1, 0x2008), (2, 0xDEADBEEF)] [(0x2004, 0x11)])
    = some ([0xEF, 0xBE, 0xAD, 0xDE, 0x11], 0x104) := by decide
theorem test_sw_last_word : memAndPc 0xFFFC 4 (hart 0x100 0x0020A023 [(1, 0xFFFC), (2, 0x44434241)] [])
    = some ([0x41, 0x42, 0x43, 0x44], 0x104) := by decide

/-- The pairs (x1, x2) of table 2.5a, in the order of its columns. -/
def pairs25a : List (Word × Word) :=
  [(5, 5), (5, 6), (0xFFFFFFFF, 1), (1, 0xFFFFFFFF), (0x80000000, 0x7FFFFFFF), (0, 0)]

/-- For each pair of table 2.5a, whether the branch at `0x100` goes to `0x110` (and not to `0x104`). -/
def takenRow (word : Nat) : List (Option Bool) :=
  pairs25a.map fun p => (regAndPc 0 (hart 0x100 word [(1, p.1), (2, p.2)] [])).bind fun r =>
    if r.2 = 0x110 then some true else if r.2 = 0x104 then some false else none

theorem test_beq : takenRow 0x00208863 = [some true, some false, some false, some false, some false, some true] := by decide
theorem test_bne : takenRow 0x00209863 = [some false, some true, some true, some true, some true, some false] := by decide
theorem test_blt : takenRow 0x0020C863 = [some false, some true, some true, some false, some true, some false] := by decide
theorem test_bge : takenRow 0x0020D863 = [some true, some false, some false, some true, some false, some true] := by decide
theorem test_bltu : takenRow 0x0020E863 = [some false, some true, some false, some true, some false, some false] := by decide
theorem test_bgeu : takenRow 0x0020F863 = [some true, some false, some true, some false, some true, some true] := by decide
theorem test_blt_lowest_offset : regAndPc 0 (hart 0x2000 0x8020C063 [(1, 0xFFFFFFFF)] []) = some (0, 0x1000) := by decide
theorem test_bne_bad_target_not_taken : regAndPc 0 (hart 0x100 0x7E209FE3 [] []) = some (0, 0x104) := by decide
theorem test_bgeu_to_itself : regAndPc 0 (hart 0x100 0x0020F063 [(1, 3), (2, 3)] []) = some (0, 0x100) := by decide
theorem test_jal_links : regAndPc 1 (hart 0x100 0x010000EF [(1, 0x77)] []) = some (0x104, 0x110) := by decide
theorem test_jalr_same_register : regAndPc 1 (hart 0x100 0x000080E7 [(1, 0x300)] []) = some (0x104, 0x300) := by decide
theorem test_jalr_clears_bit_0 : regAndPc 1 (hart 0x100 0x001280E7 [(1, 0x77), (5, 0x2000)] []) = some (0x104, 0x2000) := by decide
theorem test_lui : regAndPc 3 (hart 0x100 0x800001B7 [(3, 0x99)] []) = some (0x80000000, 0x104) := by decide
theorem test_auipc_wraps : regAndPc 3 (hart 0x100 0xFFFFF197 [(3, 0x99)] []) = some (0xFFFFF100, 0x104) := by decide
theorem test_auipc_last_slot : regAndPc 3 (hart 0xFFFC 0x80000197 [] []) = some (0x8000FFFC, 0x10000) := by decide

/-! ## Devices (tables 2.3b, 2.4b) -/

/-- A Hart of table 2.3b: `sensor[i] = 0x11 + i`, `act[i] = 0xA0 + i`, gap RAM `44 33 22 11` at `0xF140`, x3 = `0x99`. -/
def device (word : Nat) (x1 : Word) : State :=
  ((hart 0x100 word [(1, x1), (2, 0x44434241), (3, 0x99)] [(0xF140, 0x44), (0xF141, 0x33), (0xF142, 0x22), (0xF143, 0x11)]).withSensor
    ((List.range 64).map (fun i => BitVec.ofNat 8 (0x11 + i)))).withAct ((List.range 16).map (fun i => BitVec.ofNat 8 (0xA0 + i)))

theorem test_lw_log_reads_zero : regAndPc 3 (device 0x0000A183 0xF000) = some (0, 0x104) := by decide
theorem test_lw_sensor : regAndPc 3 (device 0x0000A183 0xF100) = some (0x14131211, 0x104) := by decide
theorem test_lhu_actuator : regAndPc 3 (device 0x0000D183 0xF20E) = some (0xAFAE, 0x104) := by decide
theorem test_lw_reserved : regAndPc 3 (device 0x0000A183 0xF5FC) = some (0, 0x104) := by decide
theorem test_lw_gap : regAndPc 3 (device 0x0000A183 0xF140) = some (0x11223344, 0x104) := by decide
theorem test_lw_straddles_blocks : recordAndReg 3 (device 0x0000A183 0xF3FE) = some (⟨.misalignedDeviceAccess, 0xF3FE, 0x100⟩, 0x99) := by decide
theorem test_lw_straddles_gap : recordAndReg 3 (device 0x0000A183 0xF13E) = some (⟨.misalignedDeviceAccess, 0xF13E, 0x100⟩, 0x99) := by decide
theorem test_lh_out_of_bounds : recordAndReg 3 (device 0x00009183 0xFFFF) = some (⟨.outOfBounds, 0xFFFF, 0x100⟩, 0x99) := by decide
theorem test_lw_out_of_bounds_top : recordAndReg 3 (device 0x0000A183 0xFFFFFFFF) = some (⟨.outOfBounds, 0xFFFFFFFF, 0x100⟩, 0x99) := by decide
theorem test_sw_straddle_before_read_only : recordAndReg 3 (device 0x0020A023 0xF0FF) = some (⟨.misalignedDeviceAccess, 0xF0FF, 0x100⟩, 0x99) := by decide
theorem test_sb_read_only : recordAndReg 3 (device 0x00208023 0xF13F) = some (⟨.readOnlyViolation, 0xF13F, 0x100⟩, 0x99) := by decide
theorem test_sw_never_wraps : recordAndReg 3 (device 0x0020A023 0xFFFFFFFE) = some (⟨.outOfBounds, 0xFFFFFFFE, 0x100⟩, 0x99) := by decide

theorem test_sw_log : (stepped (device 0x0020A023 0xF001)).map (fun t => (t.log, Memory.read t.mem 0xF001, t.pc))
    = some ([0x41, 0x42, 0x43, 0x44], 0, 0x104) := by decide
theorem test_sh_actuator : (stepped (device 0x00209023 0xF20E)).map (fun t => (t.act.drop 13, t.log, t.pc))
    = some ([0xAD, 0x41, 0x42], [], 0x104) := by decide
theorem test_sw_reserved : stepped (device 0x0020A023 0xF300) = some (device 0x0020A023 0xF300).advance := by decide

/-! ## Faults of control flow, fetch and decode (tables 2.5b, 2.6, 2.8, 2.9) -/

theorem test_beq_wraps_below : recordAndReg 1 (hart 0x100 0xEE208EE3 [] []) = some (⟨.invalidBranchTarget, 0xFFFFFFFC, 0x100⟩, 0) := by decide
theorem test_beq_past_end : recordAndReg 1 (hart 0xFFF8 0x00208463 [] []) = some (⟨.invalidBranchTarget, 0x10000, 0xFFF8⟩, 0) := by decide
theorem test_bne_target_bit_1 : recordAndReg 1 (hart 0x100 0x7E209FE3 [(1, 1)] []) = some (⟨.invalidBranchTarget, 0x10FE, 0x100⟩, 1) := by decide
theorem test_jal_no_link_on_fault : recordAndReg 1 (hart 0x100 0x002000EF [(1, 0x77)] []) = some (⟨.invalidBranchTarget, 0x102, 0x100⟩, 0x77) := by decide
theorem test_jalr_records_cleared_target : recordAndReg 1 (hart 0x100 0x003280E7 [(1, 0x77), (5, 0x2000)] []) = some (⟨.invalidBranchTarget, 0x2002, 0x100⟩, 0x77) := by decide
theorem test_illegal_word : recordAndReg 3 (hart 0x100 0x00000073 [(3, 9)] []) = some (⟨.illegalInstruction, 0x00000073, 0x100⟩, 9) := by decide
theorem test_fetch_alignment_first : recordAndReg 3 (hart 0x10002 0 [] []) = some (⟨.misalignedFetch, 0x10002, 0x10002⟩, 0) := by decide
theorem test_fetch_out_of_bounds : recordAndReg 3 (hart 0xFFFFFFFC 0 [] []) = some (⟨.outOfBounds, 0xFFFFFFFC, 0xFFFFFFFC⟩, 0) := by decide
theorem test_fetch_from_device : recordAndReg 3 (hart 0xF5FC 0 [] []) = some (⟨.executeFromDevice, 0xF5FC, 0xF5FC⟩, 0) := by decide
theorem test_fetch_last_slot : recordAndReg 3 (hart 0xFFFC 0 [] []) = some (⟨.illegalInstruction, 0, 0xFFFC⟩, 0) := by decide

/-- Table 2.4c: the second step fetches the word the first one stored. -/
theorem test_store_then_fetch :
    (stepped (hart 0x100 0x0020A023 [(1, 0x104), (2, 0x00700293)] [(0x104, 0x93), (0x105, 0x02), (0x106, 0x10)])).bind (regAndPc 5)
    = some (7, 0x108) := by decide

/-! ## The run call and reset (table 2.10) -/

/-- From bare reset the first word fetched is 0, which is no instruction. -/
theorem test_reset_step : recordAndReg 0 State.reset = some (⟨.illegalInstruction, 0, 0⟩, 0) := by decide

/-- `withFetchWord` places what the next step runs, from reset. -/
theorem test_fetch_word : regAndPc 5 (State.reset.withFetchWord 32 0x00300293) = some (3, 4) := by decide

/-- `run(8)` on a Hart spinning at `jal x0, 0`. -/
theorem test_run_spin : runCall 8 (hart 0 0x6F [] []) = (hart 0 0x6F [] [], .ok) := by decide

/-- `run(0)` makes no step. -/
theorem test_run_zero : runCall 0 (hart 0 0 [] []) = (hart 0 0 [] [], .ok) := by decide

/-- A faulting run ends early and returns the record, and a later one returns the same (P7). -/
theorem test_run_fault : (runCall 10 (hart 8 0 [] [])).2 = .fault (some ⟨.illegalInstruction, 0, 8⟩) ∧
    runCall 10 (runCall 10 (hart 8 0 [] [])).1 = runCall 1 (hart 8 0 [] []) := by decide

/-- A snapshot replaces all SENSOR_LEN bytes; one of another length is none (R298, R16). -/
theorem test_write_sensors : (writeSensors (List.replicate 64 7) State.reset).map (fun s => byteAt s.sensor 63) = some 7 ∧
    writeSensors [7] State.reset = none := by decide

/-- The drained bytes, then the later ones (P4). -/
theorem test_read_log : readLog 1 (State.reset.withLog [0x11, 0x00, 0x00]) = ([0x00, 0x00], 3) := by decide

/-! ## The assembler's conveniences (R110, R111) -/

theorem test_asm : asm (.sw 1 2 (-8)) = "sw x2, -8(x1)" ∧ asm (.beq 1 2 8) = "beq x1, x2, +8" ∧ asm (.jal 1 (-256)) = "jal x1, -256" := by decide

theorem test_hi_lo : hi20 0xDEADBEEF = 0xDEADC ∧ lo12 0xDEADBEEF = (-273 : BitVec 12) := by decide

/-! ## Witnesses: for each statement with hypotheses, operands and a state that meet them, each clause at a boundary -/

theorem witness_DecodeOfEncodeIsTheInstruction : (Instr.blt 1 2 (-4096)).WellFormed ∧ (Instr.jal 5 1048574).WellFormed := by
  decide

theorem witness_EncodeOfDecodeIsTheWord : decode 0x8020C063 = .ok (.blt 1 2 (-4096)) := by decide

theorem witness_DecodedInstructionsAreWellFormed : decode 0x7FFFF2EF = .ok (.jal 5 1048574) := by decide

theorem witness_OpcodeMapSelectsTheDecodedInstruction : (⟨"SRAI", 0x40005013, 0xFE00707F⟩ : OpcodeRow) ∈ opcodeMap := by decide

theorem witness_UnsupportedFamiliesAreRefusedByClass :
    ((0x00300292 : Word).extractLsb' 0 2 ≠ 0b11#2 ∧ (0x00300290 : Word).extractLsb' 0 2 ≠ 0b11#2) ∧
    0b1010011#7 ∈ [0b0000111#7, 0b0100111#7, 0b1000011#7, 0b1000111#7, 0b1001011#7, 0b1001111#7, 0b1010011#7] ∧
    (∀ w ∈ ([0x0000000B, 0x02008157, 0x0000001F, 0xFFFFFFFF] : List Word), w.extractLsb' 0 2 = 0b11#2 ∧
      w.extractLsb' 0 7 ∉ [0b0110111#7, 0b0010111#7, 0b1101111#7, 0b1100111#7, 0b1100011#7, 0b0000011#7, 0b0100011#7,
        0b0010011#7, 0b0110011#7] ∧
      w.extractLsb' 0 7 ∉ [0b0001111#7, 0b1110011#7, 0b0101111#7, 0b0000111#7, 0b0100111#7, 0b1000011#7, 0b1000111#7,
        0b1001011#7, 0b1001111#7, 0b1010011#7]) :=
  ⟨by decide, by decide, List.forall_mem_cons.2 ⟨by decide, List.forall_mem_cons.2 ⟨by decide,
    List.forall_mem_cons.2 ⟨by decide, List.forall_mem_singleton.2 (by decide)⟩⟩⟩⟩

theorem witness_UnusedFunctionCodesAreRefused :
    0b110#3 ∈ [0b011#3, 0b110#3, 0b111#3] ∧ 0b011#3 ∉ [0b000#3, 0b001#3, 0b010#3] ∧ 0b011#3 ∈ [0b010#3, 0b011#3] ∧
    0b001#3 ≠ 0b000#3 ∧
    (0b0100000#7 ≠ 0b0000000#7 ∧ 0b0100000#7 ≠ 0b0000001#7 ∧
      (0b0100000#7, 0b001#3) ∉ [(0b0100000#7, 0b000#3), (0b0100000#7, 0b101#3)]) := by decide

/-- At the last slot of the arena, and at the last plain word below block A. -/
theorem witness_StepExecutesTheDecodedInstruction : ∀ pc ∈ ([0xFFFC, 0xEFFC] : List Word),
    let s := hart pc 0x002081B3 [] []
    s.run = .running ∧ s.pc.toNat % 4 = 0 ∧ InArena s.params s.pc.toNat 4 ∧ OutsideBlocks s.params s.pc.toNat 4 ∧
    decodeBytes [Memory.read s.mem s.pc.toNat, Memory.read s.mem (s.pc.toNat + 1), Memory.read s.mem (s.pc.toNat + 2),
      Memory.read s.mem (s.pc.toNat + 3)] = .ok (.add 3 1 2, []) := by
  intro pc h
  simp only [List.mem_cons, List.not_mem_nil, or_false] at h
  rcases h with rfl | rfl <;> decide

theorem witness_UnmatchedWordRaisesIllegalInstruction :
    (hart 0x100 0x02009193 [] []).run = .running ∧ fetch (hart 0x100 0x02009193 [] []) = .ok 0x02009193 ∧
    ∀ row ∈ opcodeMap, 0x02009193 &&& row.mask ≠ row.matchBits := ⟨by decide, by decide, by decide⟩

/-- The four outcomes of the fetch, each at an edge, and a fetch that raises while `Running`. -/
theorem witness_FetchChecksAlignmentBoundsDevices :
    (hart 0x10002 0 [] []).pc.toNat % 4 ≠ 0 ∧
    ((hart 0x10000 0 [] []).pc.toNat % 4 = 0 ∧ ¬InArena (hart 0x10000 0 [] []).params (hart 0x10000 0 [] []).pc.toNat 4) ∧
    ((hart 0xF000 0 [] []).pc.toNat % 4 = 0 ∧ InArena (hart 0xF000 0 [] []).params (hart 0xF000 0 [] []).pc.toNat 4 ∧
      ¬OutsideBlocks (hart 0xF000 0 [] []).params (hart 0xF000 0 [] []).pc.toNat 4) ∧
    ((hart 0xEFFC 0 [] []).pc.toNat % 4 = 0 ∧ InArena (hart 0xEFFC 0 [] []).params (hart 0xEFFC 0 [] []).pc.toNat 4 ∧
      OutsideBlocks (hart 0xEFFC 0 [] []).params (hart 0xEFFC 0 [] []).pc.toNat 4) ∧
    ((hart 0x10000 0 [] []).run = .running ∧ fetch (hart 0x10000 0 [] []) = .error ⟨.outOfBounds, 0x10000⟩) :=
  ⟨by decide, by decide, by decide, by decide, by decide⟩

theorem witness_RunningStepsAndFaultedStays :
    State.reset.run = .running ∧ (State.reset.takeFault ⟨.illegalInstruction, 0⟩).run = .faulted :=
  ⟨rfl, rfl⟩

theorem witness_FaultingStepChangesOnlyRunAndFault : ∃ t, step (hart 0x100 0x73 [] []) = .next t ∧ t.run = .faulted :=
  ⟨_, rfl, rfl⟩

theorem witness_InstructionRaisesOnlyItsKinds :
    (hart 0x100 0 [] []).params.Ok ∧ (hart 0x100 0 [] []).run = .running ∧
    ∃ t, exec (.lb 3 0 (-1)) (hart 0x100 0 [] []) = .next t ∧ t.run = .faulted := ⟨by decide, rfl, _, rfl, by decide⟩

/-- A taken branch, a faulting one, and a run of one step of an instruction that takes no transfer. -/
theorem witness_PcAdvancesByFourOrToTheTarget :
    (∃ t, Executes (hart 0x100 0x00208863 [] []) (.beq 1 2 16) ∧ step (hart 0x100 0x00208863 [] []) = .next t ∧
      t.run = .running) ∧
    (∃ t, Executes (hart 0xFFF8 0x00208463 [] []) (.beq 1 2 8) ∧ step (hart 0xFFF8 0x00208463 [] []) = .next t ∧
      t.run = .faulted) ∧
    ((runSteps 1 (hart 0xFFFC 0x002081B3 [] [])).run = .running ∧
      ∀ k < 1, ∃ i, Executes (runSteps k (hart 0xFFFC 0x002081B3 [] [])) i ∧
        takenTarget (runSteps k (hart 0xFFFC 0x002081B3 [] [])) i = none) := by
  refine ⟨⟨_, ⟨0x00208863, by decide, rfl⟩, rfl, rfl⟩, ⟨_, ⟨0x00208463, by decide, rfl⟩, rfl, rfl⟩, by decide, fun k hk => ?_⟩
  obtain rfl : k = 0 := by omega
  exact ⟨.add 3 1 2, ⟨0x002081B3, by decide, rfl⟩, rfl⟩

/-- A step that stores: for the statements about every step's parameters, sensor and log. -/
theorem witness_StepNeverChangesParametersOrSensor : ∃ t, step (device 0x0020A023 0xF000) = .next t := ⟨_, rfl⟩

theorem witness_LogIsAppendOnly : ∃ t, step (device 0x0020A023 0xF0FC) = .next t ∧ t.log.length = 4 := ⟨_, rfl, by decide⟩

theorem witness_MemoryUnderBlocksIsNeverWritten :
    Memory.wf (device 0 0xF000).mem ∧ (∃ t, exec (.sw 1 2 0) (device 0 0xF000) = .next t) ∧
    ∃ e ∈ (device 0 0xF000).params.ioMap.blocks, InBlock e.2 0xF0FF := ⟨by decide, ⟨_, rfl⟩, by decide⟩

theorem witness_OnlyTheDestinationRegisterChanges :
    (∃ t, exec (.add 0 1 2) (hart 0x100 0 [] []) = .next t) ∧ dest (.add 3 1 2) ≠ some 1#5 ∧ dest (.add 0 1 2) = some 0#5 :=
  ⟨⟨_, rfl⟩, by decide, by decide⟩

/-- A state that meets the invariant and steps: the last slot of the arena, whose step leaves the pc at ARENA_LEN. -/
theorem witness_EveryStepKeepsTheInvariant :
    (hart 0xFFFC 0x002081B3 [] []).Inv ∧ ∃ t, step (hart 0xFFFC 0x002081B3 [] []) = .next t ∧ t.pc = 0x10000 :=
  ⟨⟨by decide, by decide, by decide, by decide, (fun r (h : none = some r) => nomatch h), by decide, by decide, by decide, by decide⟩, _, rfl, by decide⟩

theorem witness_EveryTickSequenceKeepsTheInvariant :
    (hart 0 0x6F [] []).Inv ∧ ∃ t, ticks [(List.replicate 64 7, 2)] (hart 0 0x6F [] []) = some t :=
  ⟨⟨by decide, by decide, by decide, by decide, (fun r (h : none = some r) => nomatch h), by decide, by decide, by decide, by decide⟩, _, rfl⟩

theorem witness_ConstructionMeetsTheInvariant :
    LaunchOk Config.fixtureT0 [(0, 0x93), (0xEFFF, 1), (0xFFFF, 1)] 0xFFFC := by decide

theorem witness_MemoryStaysCanonical :
    Memory.wf (hart 0x100 0 [(1, 0x2000), (2, 5)] []).mem ∧ ∃ t, exec (.sw 1 2 0) (hart 0x100 0 [(1, 0x2000), (2, 5)] []) = .next t :=
  ⟨by decide, _, rfl⟩

theorem witness_RegisterZeroIsHardWired : (31#5 : RegIdx) ≠ 0#5 ∧ (31#5 : RegIdx) ≠ 1#5 ∧
    ∃ t, exec (withDest 31 (.jal 1 8)) (hart 0x100 0 [] []) = .next t ∧ t.readReg 31 = 0x104 :=
  ⟨by decide, by decide, _, rfl, by decide⟩

theorem witness_ShiftImmediateResults :
    (0x02009193 : Word) = 0b0000001#7 ++ 0b00000#5 ++ 0b00001#5 ++ 0b001#3 ++ 0b00011#5 ++ 0b0010011#7 ∧
    (0x6040D193 : Word) = 0b0110000#7 ++ 0b00100#5 ++ 0b00001#5 ++ 0b101#3 ++ 0b00011#5 ++ 0b0010011#7 ∧
    (0b0000001#7 : BitVec 7) ≠ 0b0000000#7 ∧ (0b0110000#7 : BitVec 7) ≠ 0b0000000#7 ∧ (0b0110000#7 : BitVec 7) ≠ 0b0100000#7 ∧
    (hart 0x100 0x02009193 [] []).run = .running ∧ fetch (hart 0x100 0x02009193 [] []) = .ok 0x02009193 ∧
    (hart 0x100 0x6040D193 [] []).run = .running ∧ fetch (hart 0x100 0x6040D193 [] []) = .ok 0x6040D193 := by decide

theorem witness_LoadImmediateBuildsAnyConstant : (31#5 : RegIdx) ≠ 0#5 := by decide

/-- The last byte of the arena. -/
theorem witness_ByteLoadsComplete :
    (device 0 0xFFFF).params.Ok ∧ InArena (device 0 0xFFFF).params (effectiveAddress (device 0 0xFFFF) 1 0).toNat 1 := by decide

/-- The last halfword of the actuator block, and the last of the arena. -/
theorem witness_HalfwordLoadsComplete : ∀ a ∈ ([0xF20E, 0xFFFE] : List Word),
    (device 0 a).params.Ok ∧ InArena (device 0 a).params (effectiveAddress (device 0 a) 1 0).toNat 2 ∧
    ¬Straddles (device 0 a).params (effectiveAddress (device 0 a) 1 0).toNat 2 := by
  intro a h
  simp only [List.mem_cons, List.not_mem_nil, or_false] at h
  rcases h with rfl | rfl <;> decide

/-- The last word of the sensor block, and the last of the arena. -/
theorem witness_WordLoadCompletes : ∀ a ∈ ([0xF13C, 0xFFFC] : List Word),
    (device 0 a).params.Ok ∧ InArena (device 0 a).params (effectiveAddress (device 0 a) 1 0).toNat 4 ∧
    ¬Straddles (device 0 a).params (effectiveAddress (device 0 a) 1 0).toNat 4 := by
  intro a h
  simp only [List.mem_cons, List.not_mem_nil, or_false] at h
  rcases h with rfl | rfl <;> decide

/-- One past the arena for each width, and the first straddle of block A for each width that has one. -/
theorem witness_LoadsFault :
    ¬InArena (device 0 0x10000).params (effectiveAddress (device 0 0x10000) 1 0).toNat 1 ∧
    ¬InArena (device 0 0xFFFF).params (effectiveAddress (device 0 0xFFFF) 1 0).toNat 2 ∧
    ¬InArena (device 0 0xFFFD).params (effectiveAddress (device 0 0xFFFD) 1 0).toNat 4 ∧
    (InArena (device 0 0xEFFF).params (effectiveAddress (device 0 0xEFFF) 1 0).toNat 2 ∧
      Straddles (device 0 0xEFFF).params (effectiveAddress (device 0 0xEFFF) 1 0).toNat 2) ∧
    (InArena (device 0 0xEFFD).params (effectiveAddress (device 0 0xEFFD) 1 0).toNat 4 ∧
      Straddles (device 0 0xEFFD).params (effectiveAddress (device 0 0xEFFD) 1 0).toNat 4) := by decide

/-- The last word below block A, which each width reaches. -/
theorem witness_StoresToPlainMemoryComplete : Memory.wf (device 0 0xEFFC).mem ∧ ∀ n ∈ [1, 2, 4],
    InArena (device 0 0xEFFC).params (effectiveAddress (device 0 0xEFFC) 1 0).toNat n ∧
    OutsideBlocks (device 0 0xEFFC).params (effectiveAddress (device 0 0xEFFC) 1 0).toNat n := by decide

/-- The last word of block A. -/
theorem witness_StoresToTheLogAppend : (device 0 0xF0FC).params.Ok ∧ ∀ n ∈ [1, 2, 4],
    WithinBlock (device 0 0xF0FC).params.ioMap.log (effectiveAddress (device 0 0xF0FC) 1 0).toNat n := by decide

/-- The last word of block C. -/
theorem witness_StoresToTheActuatorsAreKept :
    (device 0 0xF20C).params.Ok ∧ (device 0 0xF20C).act.length = (device 0 0xF20C).params.ioMap.act.len ∧
    ∀ n ∈ [1, 2, 4], WithinBlock (device 0 0xF20C).params.ioMap.act (effectiveAddress (device 0 0xF20C) 1 0).toNat n := by decide

/-- The first word of block D and the last of block F. -/
theorem witness_StoresToReservedBlocksAreIgnored : (device 0 0xF300).params.Ok ∧ ∀ n ∈ [1, 2, 4],
    WithinBlock (device 0 0xF300).params.ioMap.resD (effectiveAddress (device 0 0xF300) 1 0).toNat n ∧
    WithinBlock (device 0 0xF5FC).params.ioMap.resF (effectiveAddress (device 0 0xF5FC) 1 0).toNat n := by decide

/-- One past the arena; a straddle; the last word of the sensor block. -/
theorem witness_StoresFault :
    (device 0 0xF13C).params.Ok ∧
    ¬InArena (device 0 0x10000).params (effectiveAddress (device 0 0x10000) 1 0).toNat 1 ∧
    (InArena (device 0 0xF0FF).params (effectiveAddress (device 0 0xF0FF) 1 0).toNat 2 ∧
      Straddles (device 0 0xF0FF).params (effectiveAddress (device 0 0xF0FF) 1 0).toNat 2) ∧
    ∀ n ∈ [1, 2, 4], WithinBlock (device 0 0xF13C).params.ioMap.sensor (effectiveAddress (device 0 0xF13C) 1 0).toNat n := by
  decide

/-- Gap RAM between blocks B and C, up to its last word. -/
theorem witness_GapsArePlainMemory :
    InArena (device 0 0).params (0xF1FC : Word).toNat Width.word.bytes ∧
    OutsideBlocks (device 0 0).params (0xF1FC : Word).toNat Width.word.bytes ∧ Memory.wf (device 0 0).mem ∧
    (0xF1FC : Word).toNat % 4 = 0 := by decide

/-- A store of each kind that reads back: to plain memory, and to the last word of the actuator block. -/
theorem witness_ReadAfterWriteGivesTheValue :
    (device 0 0).params.Ok ∧ Memory.wf (device 0 0).mem ∧ (device 0 0).act.length = (device 0 0).params.ioMap.act.len ∧
    (OutsideBlocks (device 0 0).params (0xFFFC : Word).toNat Width.word.bytes ∧
      ∃ t, memWrite (device 0 0) 0xFFFC .word 5 = .ok t) ∧
    (WithinBlock (device 0 0).params.ioMap.act (0xF20C : Word).toNat Width.word.bytes ∧
      ∃ t, memWrite (device 0 0) 0xF20C .word 5 = .ok t) :=
  ⟨by decide, by decide, by decide, ⟨by decide, _, rfl⟩, by decide, _, rfl⟩

theorem witness_LogAndReservedReadZero :
    (device 0 0).params.Ok ∧ WithinBlock (device 0 0).params.ioMap.log (0xF0FC : Word).toNat Width.word.bytes ∧
    WithinBlock (device 0 0).params.ioMap.resE (0xF400 : Word).toNat Width.word.bytes := by decide

/-- A word stored at `0x2000`; the base of the later load is `x4`, at the word's last byte and at its last halfword. -/
theorem witness_NarrowLoadsSeeTheStoredWord : ∀ k ∈ ([3, 2] : List Word),
    let s := hart 0x100 0 [(1, 0x2000), (2, 0xDEADBEEF), (4, 0x2000 + k)] []
    Memory.wf s.mem ∧ InArena s.params (effectiveAddress s 1 0).toNat 4 ∧ OutsideBlocks s.params (effectiveAddress s 1 0).toNat 4 ∧
    (3#5 : RegIdx) ≠ 0#5 ∧
    ∃ t, exec (.sw 1 2 0) s = .next t ∧ (t.readReg 4).toNat = (effectiveAddress s 1 0).toNat + k.toNat := by
  intro k h
  simp only [List.mem_cons, List.not_mem_nil, or_false] at h
  rcases h with rfl | rfl <;> exact ⟨by decide, by decide, by decide, by decide, _, rfl, by decide⟩

theorem witness_FetchSeesTheStoredWord :
    let s := hart 0x100 0 [(1, 0xEFFC), (2, 0x00700293)] []
    Memory.wf s.mem ∧ (effectiveAddress s 1 0).toNat % 4 = 0 ∧ InArena s.params (effectiveAddress s 1 0).toNat 4 ∧
    OutsideBlocks s.params (effectiveAddress s 1 0).toNat 4 ∧ ∃ t, exec (.sw 1 2 0) s = .next t :=
  ⟨by decide, by decide, by decide, by decide, _, rfl⟩

/-- A target at the last slot, and a branch not taken. Signed and unsigned conditions differ on these operands. -/
theorem witness_BranchesComplete :
    let s := hart 0xFFF8 0 [(1, 0x80000000), (2, 0x7FFFFFFF)] []
    ValidTarget s.params (pcPlus s (4 : BitVec 13).toInt) ∧
    decide (s.readReg 1 = s.readReg 2) = false ∧ decide (s.readReg 1 = s.readReg 1) = true ∧
    decide ((s.readReg 1).toInt < (s.readReg 2).toInt) = true ∧ decide ((s.readReg 1).toInt ≥ (s.readReg 2).toInt) = false ∧
    decide ((s.readReg 1).toNat < (s.readReg 2).toNat) = false ∧ decide ((s.readReg 1).toNat ≥ (s.readReg 2).toNat) = true := by
  decide

/-- A target just past the last slot. -/
theorem witness_BranchesFault :
    let s := hart 0xFFF8 0 [(1, 0x80000000), (2, 0x7FFFFFFF)] []
    ¬ValidTarget s.params (pcPlus s (8 : BitVec 13).toInt) ∧ s.readReg 1 = s.readReg 1 ∧ s.readReg 1 ≠ s.readReg 2 ∧
    (s.readReg 1).toInt < (s.readReg 2).toInt ∧ (s.readReg 2).toInt ≥ (s.readReg 1).toInt ∧
    (s.readReg 2).toNat < (s.readReg 1).toNat ∧ (s.readReg 1).toNat ≥ (s.readReg 2).toNat := by decide

/-- JAL and JALR to the last slot; the sum of JALR is odd. -/
theorem witness_JumpsComplete :
    let s := hart 0x100 0 [(5, 0xFFFC)] []
    ValidTarget s.params (pcPlus s (65276 : BitVec 21).toInt) ∧
    ((0xFFFC : Word).toNat : Int) = ((s.readReg 5).toNat + (1 : BitVec 12).toInt) % 2 ^ 32 / 2 * 2 ∧
    ValidTarget s.params 0xFFFC := by decide

/-- JAL just past the arena; JALR to a target whose bit 1 is set after bit 0 was cleared. -/
theorem witness_JumpsFault :
    let s := hart 0x100 0 [(5, 0x2000)] []
    ¬ValidTarget s.params (pcPlus s (65280 : BitVec 21).toInt) ∧
    ((0x2002 : Word).toNat : Int) = ((s.readReg 5).toNat + (3 : BitVec 12).toInt) % 2 ^ 32 / 2 * 2 ∧
    ¬ValidTarget s.params 0x2002 := by decide

theorem witness_BudgetsCompose : (runSteps 1 (hart 0x100 0 [] [])).run = .faulted := by decide

theorem witness_SensorReadsGiveTheLastSnapshot :
    (List.replicate 64 (7 : Byte)).length = State.reset.params.ioMap.sensor.len ∧
    (∃ t, writeSensors (List.replicate 64 7) State.reset = some t) ∧ State.reset.params.Ok ∧
    (∀ e ∈ ([(0xF100, .byte), (0xF13F, .byte), (0xF101, .half), (0xF13E, .half), (0xF100, .word), (0xF13C, .word)]
        : List (Word × Width)), WithinBlock State.reset.params.ioMap.sensor e.1.toNat e.2.bytes) :=
  ⟨by decide, ⟨_, rfl⟩, by decide, by decide⟩

theorem witness_DrainsJoinToTheLog : 1 ≤ (State.reset.withLog [0x11]).log.length := by decide

end Sys2Proof.Tests
end

section
/-! PROOFS. The invariant of a Hart (`State.Inv`) under each update of the state, and under every step (10_state.md rules R20
to R37). Each way an instruction can end (`Ending`) is one or two of these updates. -/

namespace Sys2Proof.Machine

/-! ## The invariant under each update -/

/-- Every byte of an access outside the blocks is itself an access outside them (R63). -/
theorem OutsideBlocks.byte {p : Params} {a n b : Nat} (h : OutsideBlocks p a n) (hlo : a ≤ b) (hhi : b < a + n) :
    OutsideBlocks p b 1 := by
  intro k hk e he
  obtain rfl : k = 0 := by omega
  have hb := h (b - a) (by omega) e he
  rwa [Nat.add_sub_cancel' hlo] at hb

/-- The invariant does not look at the registers. -/
theorem State.Inv.writeReg {s : State} (h : s.Inv) (rd : RegIdx) (v : Word) : (s.writeReg rd v).Inv :=
  { h with }

/-- The invariant does not look at the contents of the log. -/
theorem State.Inv.withLog {s : State} (h : s.Inv) (l : List Byte) : (s.withLog l).Inv :=
  { h with }

theorem State.Inv.withAct {s : State} (h : s.Inv) {a : List Byte} (ha : a.length = s.act.length) : (s.withAct a).Inv :=
  { h with act_len := ha.trans h.act_len }

/-- Bytes laid into plain memory in bounds keep the memory canonical and its cells plain (R32, R54). -/
theorem State.Inv.withMem_writeBytes {s : State} (h : s.Inv) {a : Nat} {bs : List Byte}
    (hin : InArena s.params a bs.length) (hout : OutsideBlocks s.params a bs.length) :
    (s.withMem (Memory.writeBytes s.mem a bs)).Inv := by
  refine { h with mem_wf := Memory.writeBytes_wf h.mem_wf a bs, mem_plain := fun c hc => ?_ }
  obtain ⟨hlo, hhi⟩ | hold := Memory.mem_writeBytes hc
  · exact ⟨Nat.le_trans hhi hin, hout.byte hlo hhi⟩
  · exact h.mem_plain c hold

/-- A `Running` Hart has no record to hold its pc, so only the bounds of R26 constrain where the pc goes. -/
theorem State.Inv.setPc {s : State} (h : s.Inv) (hrun : s.run = .running) {t : Word} (ht : t.toNat % 4 = 0)
    (hle : t.toNat ≤ s.params.arenaLen) : (s.setPc t).Inv := by
  refine { h with pc_aligned := ht, pc_in_arena := hle, fault_pc := fun r hr => ?_ }
  rw [State.setPc_fault, h.fault_absent.2 hrun] at hr
  cases hr

/-- A target that passes the check is a place the pc may hold (R195). -/
theorem State.Inv.setPc_of_checkTarget {s : State} (h : s.Inv) (hrun : s.run = .running) {t : Word}
    (ht : checkTarget s t = none) : (s.setPc t).Inv := by
  obtain ⟨halign, hin⟩ := (checkTarget_none_iff_valid s t).1 ht
  exact h.setPc hrun halign (Nat.le_of_add_right_le hin)

/-- The sum `pc + 4` does not wrap while the instruction at the pc lies in an arena shorter than 2^32 (R9, R25). -/
theorem nextPc_toNat {s : State} (hp : s.params.Ok) (hpc : InArena s.params s.pc.toNat 4) :
    s.nextPc.toNat = s.pc.toNat + 4 := by
  obtain ⟨-, -, hlen, -⟩ := hp
  exact BitVec.toNat_add_of_lt (Nat.lt_of_le_of_lt hpc hlen)

/-- From a slot of the arena the pc advances to the next slot or to ARENA_LEN (R26). -/
theorem State.Inv.advance {s : State} (h : s.Inv) (hrun : s.run = .running)
    (hpc : InArena s.params s.pc.toNat 4) : s.advance.Inv := by
  have hnext := nextPc_toNat h.params_ok hpc
  have halign := h.pc_aligned
  exact h.setPc hrun (by omega) (hnext ▸ hpc)

/-- Fault entry writes the record with the Hart's own pc (R31, R258). -/
theorem State.Inv.takeFault {s : State} (h : s.Inv) (r : Raise) : (s.takeFault r).Inv :=
  { h with
    fault_absent := by simp
    fault_pc := fun f hf => by cases hf; rfl }

/-- A completing store keeps the invariant, wherever its bytes go (R54). -/
theorem memWrite_inv {s t : State} {a : Word} {w : Width} {v : Word} (h : memWrite s a w v = .ok t) (hi : s.Inv) :
    t.Inv := by
  obtain ⟨hin, ⟨hplain, rfl⟩ | ⟨o, -, rfl⟩ | ⟨o, -, rfl⟩ | ⟨o, -, rfl⟩⟩ := memWrite_ok h
  · have hout := outside_of_place hplain
    exact hi.withMem_writeBytes (by rwa [bytesOf_length]) (by rwa [bytesOf_length])
  · exact hi.withLog _
  · exact hi.withAct (layBytes_length _ _ _)
  · exact hi

/-! ## The invariant under a step -/

/-- A word was fetched, so the whole instruction at the pc lies in the arena (R55). -/
theorem inArena_of_fetch {s : State} {w : Word} (h : fetch s = .ok w) : InArena s.params s.pc.toNat 4 := by
  obtain ⟨-, hin, -, -⟩ := fetch_ok h
  exact hin

/-- Every way an instruction ends keeps the invariant of a `Running` Hart whose instruction lies in the arena. -/
theorem Ending.keeps_inv {s t : State} {o : Result} (h : Ending s o) (ho : o = .next t) (hi : s.Inv)
    (hrun : s.run = .running) (hpc : InArena s.params s.pc.toNat 4) : t.Inv := by
  obtain ⟨rd, v, rfl⟩ | ⟨a, w, v, u, hw, rfl⟩ | rfl | ⟨a, ha, rfl⟩ | ⟨rd, a, ha, rfl⟩ | ⟨r, rfl⟩ := h.next_cases ho
  · exact (hi.writeReg rd v).advance hrun hpc
  · obtain ⟨hparams, -, hsamePc, hsameRun, -, -⟩ := memWrite_frame hw
    exact (memWrite_inv hw hi).advance (hsameRun.trans hrun) (by rwa [hparams, hsamePc])
  · exact hi.advance hrun hpc
  · exact hi.setPc_of_checkTarget hrun ha
  · exact (hi.writeReg rd s.nextPc).setPc_of_checkTarget hrun ha
  · exact hi.takeFault r

/-- Settles O21: a step faults before it executes, or executes an instruction it fetched from the arena; both keep the
invariant. -/
theorem everyStepKeepsTheInvariant : Obligations.EveryStepKeepsTheInvariant := by
  intro s t hi hstep
  obtain ⟨r, rfl⟩ | ⟨w, i, hfetch, -, hexec⟩ := step_next hstep
  · exact hi.takeFault r
  · exact (exec_ending i s).keeps_inv hexec hi (running_of_step hstep) (inArena_of_fetch hfetch)

end Sys2Proof.Machine
end

section
/-! PROOFS. The invariant of a Hart through its whole life: from construction, through every run call and every snapshot the
host supplies (70_reset_and_hazards.md rules R290 to R300). -/

namespace Sys2Proof.Machine

/-! ## Runs -/

/-- A budget of one step more begins with the step (R296). -/
theorem runSteps_succ {s t : State} (h : step s = .next t) (n : Nat) : runSteps (n + 1) s = runSteps n t := by
  simp [runSteps, h]

/-- What every step keeps holds at the end of every run. -/
theorem runSteps_keeps {P : State → Prop} (hstep : ∀ s t, P s → step s = .next t → P t) {s : State} (h : P s)
    (n : Nat) : P (runSteps n s) := by
  induction n generalizing s with
  | zero => exact h
  | succ n ih =>
    cases hs : step s with
    | next t =>
      rw [runSteps_succ hs]
      exact ih (hstep s t h hs)
    | fault _ | refused _ => simpa [runSteps, hs] using h

theorem runSteps_inv {s : State} (h : s.Inv) (n : Nat) : (runSteps n s).Inv :=
  runSteps_keeps everyStepKeepsTheInvariant h n

/-! ## Ticks -/

/-- The host's call has an outcome exactly for a list of SENSOR_LEN bytes, and replaces the snapshot by it (R298; log 13). -/
theorem writeSensors_eq_some_iff {snapshot : List Byte} {s t : State} :
    writeSensors snapshot s = some t ↔
      snapshot.length = s.params.ioMap.sensor.len ∧ s.withSensor snapshot = t := by
  simp [writeSensors]

theorem writeSensors_inv {snapshot : List Byte} {s t : State} (h : writeSensors snapshot s = some t) (hi : s.Inv) :
    t.Inv := by
  obtain ⟨hlen, rfl⟩ := writeSensors_eq_some_iff.1 h
  exact { hi with sensor_len := hlen }

/-- A tick is a snapshot and then a run (R298). -/
theorem tick_inv {snapshot : List Byte} {budget : Word} {s t : State} (h : tick snapshot budget s = some t)
    (hi : s.Inv) : t.Inv := by
  obtain ⟨u, hu, rfl⟩ := Option.map_eq_some_iff.1 h
  exact runSteps_inv (writeSensors_inv hu hi) budget.toNat

/-- Settles O22, by induction on the sequence: each tick is a snapshot of the right length and a run, and both keep the
invariant. -/
theorem everyTickSequenceKeepsTheInvariant : Obligations.EveryTickSequenceKeepsTheInvariant := by
  intro inputs
  induction inputs with
  | nil =>
    rintro s t hi ⟨⟩
    exact hi
  | cons input rest ih =>
    intro s t hi h
    obtain ⟨snapshot, budget⟩ := input
    cases htick : tick snapshot budget s with
    | none => simp [ticks, htick] at h
    | some u => exact ih u t (tick_inv htick hi) (by simpa [ticks, htick] using h)

/-! ## Construction -/

/-- Settles O23: the launch predicate gives what the invariant asks of the parameters, the entry address and the image, and
the other fields are the ones construction writes. -/
theorem constructionMeetsTheInvariant : Obligations.ConstructionMeetsTheInvariant := by
  rintro p image entry ⟨hparams, hwf, hplain, halign, hentry⟩
  exact {
    params_ok := hparams
    pc_aligned := (aligned4_iff entry).1 halign
    pc_in_arena := Nat.le_of_add_right_le hentry
    fault_absent := by simp
    fault_pc := by simp
    mem_wf := hwf
    mem_plain := fun c hc => ⟨(hplain c hc).1, (outsideBlocks_iff p c.1 1).2 (hplain c hc).2⟩
    sensor_len := List.length_replicate
    act_len := List.length_replicate }

end Sys2Proof.Machine
end

section
/-! PROOFS. What the fetch answers, where a step goes from it, and the two run states (10_state.md rules R30, R36, R37;
20_memory.md rule R55; 60_exceptions.md R251 to R253, R258). -/

namespace Sys2Proof.Machine

/-! ## The fetch, check by check (R55) -/

theorem fetch_misaligned {s : State} (h : s.pc.toNat % 4 ≠ 0) : fetch s = .error ⟨.misalignedFetch, s.pc⟩ := by
  have halign : aligned4 s.pc = false := Bool.eq_false_iff.2 (mt (aligned4_iff s.pc).1 h)
  simp [fetch, halign]

theorem fetch_outOfBounds {s : State} (halign : s.pc.toNat % 4 = 0) (h : ¬InArena s.params s.pc.toNat 4) :
    fetch s = .error ⟨.outOfBounds, s.pc⟩ := by
  have hleaves := (leavesArena_iff s s.pc 4).2 (Nat.lt_of_not_le h)
  simp [fetch, (aligned4_iff s.pc).2 halign, hleaves]

theorem fetch_device {s : State} (halign : s.pc.toNat % 4 = 0) (hin : InArena s.params s.pc.toNat 4)
    (h : ¬OutsideBlocks s.params s.pc.toNat 4) : fetch s = .error ⟨.executeFromDevice, s.pc⟩ := by
  have hstays := (leavesArena_false_iff s s.pc 4).2 hin
  have htouched : touched s.params.ioMap s.pc.toNat 4 ≠ [] := mt (outsideBlocks_iff s.params s.pc.toNat 4).2 h
  simp [fetch, (aligned4_iff s.pc).2 halign, hstays, htouched]

theorem fetch_plain {s : State} (halign : s.pc.toNat % 4 = 0) (hin : InArena s.params s.pc.toNat 4)
    (h : OutsideBlocks s.params s.pc.toNat 4) :
    fetch s = .ok (wordOf (readBytes (Memory.read s.mem) s.pc.toNat 4)) :=
  fetch_eq ((aligned4_iff s.pc).2 halign) hin ((outsideBlocks_iff s.params s.pc.toNat 4).1 h)

/-! ## The step, by what the fetch and the decoder answer (R36) -/

theorem step_of_fetch_error {s : State} {r : Raise} (hrun : s.run = .running) (h : fetch s = .error r) :
    step s = raise s r := by
  simp [step, hrun, h]

theorem step_of_decode {s : State} {w : Word} {i : Instr} (hrun : s.run = .running) (hfetch : fetch s = .ok w)
    (hdecode : decode w = .ok i) : step s = exec i s := by
  simp [step, hrun, hfetch, hdecode]

/-- Four bytes are one word to the decoder, with nothing left over (R90). -/
theorem decodeBytes_four_ok {b0 b1 b2 b3 : Byte} {i : Instr} {rest : List Byte}
    (h : decodeBytes [b0, b1, b2, b3] = .ok (i, rest)) : decode (wordOf [b0, b1, b2, b3]) = .ok i := by
  cases hd : decode (wordOf [b0, b1, b2, b3]) with
  | ok j =>
    obtain ⟨rfl, -⟩ : j = i ∧ [] = rest := by simpa [decodeBytes, hd] using h
    rfl
  | error r => simp [decodeBytes, hd] at h

/-- Settles O11: one lemma for each check of the fetch, in their order, and the fault of the step is what the fetch raises. -/
theorem fetchChecksAlignmentBoundsDevices : Obligations.FetchChecksAlignmentBoundsDevices := by
  intro s
  refine ⟨fetch_misaligned, fetch_outOfBounds, fetch_device, fun halign hin hout => ?_, fun r hrun hfetch => ?_⟩
  · rw [fetch_plain halign hin hout, readBytes_four, wordOf_four]
  · exact step_of_fetch_error hrun hfetch

/-- Settles O9: the fetch answers the word of the four bytes at the pc, and the decoder answers the instruction for it. -/
theorem stepExecutesTheDecodedInstruction : Obligations.StepExecutesTheDecodedInstruction := by
  intro s i hrun halign hin hout hdecode
  have hfetch := fetch_plain halign hin hout
  rw [readBytes_four] at hfetch
  exact step_of_decode hrun hfetch (decodeBytes_four_ok hdecode)

/-! ## Running and Faulted (R30) -/

/-- Every step of a `Running` Hart answers a next state: taking a fault is one too (R258). -/
theorem step_next_of_running {s : State} (h : s.run = .running) : ∃ t, step s = .next t := by
  obtain ⟨r, -, e⟩ | ⟨w, c, -, -, e⟩ | ⟨w, i, -, -, e⟩ := step_running h
  · exact ⟨_, e⟩
  · exact ⟨_, e⟩
  · exact e ▸ exec_next i s

/-- A run takes no step of a `Faulted` Hart, whatever its budget (R296). -/
theorem runSteps_of_faulted {s : State} (h : s.run = .faulted) (n : Nat) : runSteps n s = s := by
  cases n with
  | zero => rfl
  | succ n => simp [runSteps, step, h]

theorem runCall_of_faulted {s : State} (h : s.run = .faulted) (budget : Word) :
    runCall budget s = (s, .fault s.fault) := by
  simp [runCall, runSteps_of_faulted h, status, h]

/-- Settles O12: construction writes `Running` and the entry address, a step of a `Running` Hart answers a next state, and
only a `Running` Hart steps. -/
theorem runningStepsAndFaultedStays : Obligations.RunningStepsAndFaultedStays := by
  refine ⟨fun p image entry => ⟨rfl, rfl⟩, fun s => step_next_of_running, fun s hfaulted t hstep => ?_,
    fun s budget hfaulted => runCall_of_faulted hfaulted budget⟩
  rw [running_of_step hstep] at hfaulted
  cases hfaulted

end Sys2Proof.Machine
end

section
/-! PROOFS. What no step and no instruction touches: the frames that follow from the ways an instruction can end
(10_state.md rules R32, R33, R37; 20_memory.md rules R54, R57, R59). -/

namespace Sys2Proof.Machine

/-! ## Every step ends like an instruction -/

/-- A step that faults before it executes ends like an instruction that faults, so the endings are all a step can do. -/
theorem step_ending {s t : State} (h : step s = .next t) : Ending s (.next t) := by
  obtain ⟨r, rfl⟩ | ⟨w, i, -, -, hexec⟩ := step_next h
  · exact .faults r
  · exact hexec ▸ exec_ending i s

/-- Only fault entry leaves a `Running` Hart `Faulted` (R258). -/
theorem Ending.fault_of_faulted {s t : State} (h : Ending s (.next t)) (hrun : s.run = .running)
    (hfaulted : t.run = .faulted) : ∃ r, t = s.takeFault r := by
  have hne : t.run ≠ s.run := by simp [hrun, hfaulted]
  obtain ⟨rd, v, rfl⟩ | ⟨a, w, v, u, hw, rfl⟩ | rfl | ⟨a, -, rfl⟩ | ⟨rd, a, -, rfl⟩ | hfault := h.next_cases rfl
  · exact absurd rfl hne
  · obtain ⟨-, -, -, hsameRun, -⟩ := memWrite_frame hw
    exact absurd hsameRun hne
  · exact absurd rfl hne
  · exact absurd rfl hne
  · exact absurd rfl hne
  · exact hfault

/-- Only a completing store touches memory or a device; every other ending leaves them, and the parameters, as they were. -/
theorem Ending.stores_or_keeps {s t : State} (h : Ending s (.next t)) :
    (∃ a w v u, memWrite s a w v = .ok u ∧ t = u.advance) ∨
    (t.params = s.params ∧ t.mem = s.mem ∧ t.log = s.log ∧ t.sensor = s.sensor ∧ t.act = s.act) := by
  obtain ⟨rd, v, rfl⟩ | hstore | rfl | ⟨a, -, rfl⟩ | ⟨rd, a, -, rfl⟩ | ⟨r, rfl⟩ := h.next_cases rfl
  · exact .inr ⟨rfl, rfl, rfl, rfl, rfl⟩
  · exact .inl hstore
  all_goals exact .inr ⟨rfl, rfl, rfl, rfl, rfl⟩

/-! ## What a completing store leaves, device by device -/

/-- A completing write appends at most its own four bytes to the log (R59). -/
theorem memWrite_log_append {s t : State} {a : Word} {w : Width} {v : Word} (h : memWrite s a w v = .ok t) :
    ∃ bytes : List Byte, bytes.length ≤ 4 ∧ t.log = s.log ++ bytes := by
  obtain ⟨-, ⟨-, rfl⟩ | ⟨o, -, rfl⟩ | ⟨o, -, rfl⟩ | ⟨o, -, rfl⟩⟩ := memWrite_ok h
  · exact ⟨[], by simp, by simp⟩
  · exact ⟨bytesOf v w.bytes, by simpa using w.bytes_le, rfl⟩
  · exact ⟨[], by simp, by simp⟩
  · exact ⟨[], by simp, by simp⟩

/-- A completing write lays bytes into `mem` only where the access is plain, so none under a block (R32, R54). -/
theorem memWrite_read_inBlock {s t : State} {a : Word} {w : Width} {v : Word} (h : memWrite s a w v = .ok t)
    (hm : Memory.wf s.mem) {e : BlockKind × Block} (he : e ∈ s.params.ioMap.blocks) {b : Nat} (hb : InBlock e.2 b) :
    Memory.read t.mem b = Memory.read s.mem b := by
  obtain ⟨-, ⟨hplain, rfl⟩ | ⟨o, -, rfl⟩ | ⟨o, -, rfl⟩ | ⟨o, -, rfl⟩⟩ := memWrite_ok h
  · have hout : ¬(a.toNat ≤ b ∧ b < a.toNat + w.bytes) := fun ⟨hlo, hhi⟩ =>
      (outside_of_place hplain).byte hlo hhi 0 Nat.one_pos e he hb
    rw [State.withMem_mem, Memory.read_writeBytes hm, bytesOf_length, if_neg hout]
  all_goals rfl

/-! ## The statements -/

/-- Settles O13: the step's ending is fault entry, the only one that leaves a `Running` Hart `Faulted`. -/
theorem faultingStepChangesOnlyRunAndFault : Obligations.FaultingStepChangesOnlyRunAndFault := by
  intro s t hstep hfaulted
  obtain ⟨r, rfl⟩ := (step_ending hstep).fault_of_faulted (running_of_step hstep) hfaulted
  exact ⟨r.kind, r.info, rfl⟩

/-- Settles O16: a completing store leaves the parameters and the snapshot, and nothing else could touch them. -/
theorem stepNeverChangesParametersOrSensor : Obligations.StepNeverChangesParametersOrSensor := by
  intro s t hstep
  obtain ⟨a, w, v, u, hw, rfl⟩ | ⟨hparams, -, -, hsensor, -⟩ := (step_ending hstep).stores_or_keeps
  · obtain ⟨hparams, -, -, -, -, hsensor⟩ := memWrite_frame hw
    exact ⟨hparams, hsensor⟩
  · exact ⟨hparams, hsensor⟩

/-- Settles O17: only a completing store reaches the log, and it appends there. -/
theorem logIsAppendOnly : Obligations.LogIsAppendOnly := by
  intro s t hstep
  obtain ⟨a, w, v, u, hw, rfl⟩ | ⟨-, -, hlog, -, -⟩ := (step_ending hstep).stores_or_keeps
  · rw [State.advance_log]
    exact memWrite_log_append hw
  · exact ⟨[], by simp, by simp [hlog]⟩

/-- Settles O18: only a completing store reaches memory, and none under a block. -/
theorem memoryUnderBlocksIsNeverWritten : Obligations.MemoryUnderBlocksIsNeverWritten := by
  intro i s t hm hexec e he a ha
  obtain ⟨b, w, v, u, hw, rfl⟩ | ⟨-, hmem, -, -, -⟩ := (hexec ▸ exec_ending i s).stores_or_keeps
  · exact memWrite_read_inBlock hw hm he ha
  · rw [hmem]

/-- Settles O26: only a completing store reaches memory, and it keeps the canonical form. -/
theorem memoryStaysCanonical : Obligations.MemoryStaysCanonical := by
  intro i s t hm hexec
  obtain ⟨a, w, v, u, hw, rfl⟩ | ⟨-, hmem, -, -, -⟩ := (hexec ▸ exec_ending i s).stores_or_keeps
  · rw [State.advance_mem]
    exact memWrite_wf hw hm
  · rwa [hmem]

end Sys2Proof.Machine
end

section
/-! PROOFS. Which registers an instruction writes: `x0` never, and of the others only the one its `rd` field names
(10_state.md rules R22, R23). -/

namespace Sys2Proof.Machine

/-- How a family of outcomes, one for each destination register, may depend on that register: not at all, or by the write of
one value to it into one state that has the registers of before. -/
inductive DestOnly (s : State) (f : RegIdx → Result) : Prop where
  | ignores (u : State) (hregs : u.regs = s.regs) (h : ∀ r, f r = .next u)
  | writes (u : State) (v : Word) (hregs : u.regs = s.regs) (h : ∀ r, f r = .next (u.writeReg r v))

/-! ## The shapes of the meanings, as families over the destination -/

theorem writeBack_destOnly (s : State) (v : Word) : DestOnly s (fun r => writeBack s r v) :=
  .writes s.advance v rfl fun _ => rfl

theorem raise_destOnly (s : State) (q : Raise) : DestOnly s (fun _ => raise s q) :=
  .ignores (s.takeFault q) rfl fun _ => rfl

theorem load_destOnly (w : Width) (ext : Word → Word) (rs1 : RegIdx) (imm : BitVec 12) (s : State) :
    DestOnly s (fun r => load w ext r rs1 imm s) := by
  cases h : memRead s (effectiveAddress s rs1 imm) w with
  | ok v => simpa only [load_ok h] using writeBack_destOnly s (ext v)
  | error q => simpa only [load_error h] using raise_destOnly s q

theorem store_destOnly (w : Width) (rs1 rs2 : RegIdx) (imm : BitVec 12) (s : State) :
    DestOnly s (fun _ => store w rs1 rs2 imm s) := by
  cases h : memWrite s (effectiveAddress s rs1 imm) w (s.readReg rs2) with
  | ok t =>
    obtain ⟨-, hregs, -⟩ := memWrite_frame h
    exact .ignores t.advance hregs fun _ => store_ok h
  | error q => simpa only [store_error h] using raise_destOnly s q

theorem branch_destOnly (c : Word → Word → Bool) (rs1 rs2 : RegIdx) (off : BitVec 13) (s : State) :
    DestOnly s (fun _ => branch c rs1 rs2 off s) := by
  cases h : c (s.readReg rs1) (s.readReg rs2) with
  | false => exact .ignores s.advance rfl fun _ => branch_not_taken h
  | true =>
    cases ht : checkTarget s (branchTarget s off) with
    | none => exact .ignores (s.setPc (branchTarget s off)) rfl fun _ => branch_taken h ht
    | some q => simpa only [branch_rejected h ht] using raise_destOnly s q

theorem jumpAndLink_destOnly (t : Word) (s : State) : DestOnly s (fun r => jumpAndLink r t s) := by
  cases h : checkTarget s t with
  | none => exact .writes (s.setPc t) s.nextPc rfl fun _ => jumpAndLink_ok h
  | some q => simpa only [jumpAndLink_rejected h] using raise_destOnly s q

/-- No instruction lets its destination decide anything but which register is written (R22, R23). -/
theorem exec_destOnly (i : Instr) (s : State) : DestOnly s (fun r => exec (withDest r i) s) := by
  cases i with
  | lb _ _ _ | lh _ _ _ | lw _ _ _ | lbu _ _ _ | lhu _ _ _ => exact load_destOnly _ _ _ _ _
  | sb _ _ _ | sh _ _ _ | sw _ _ _ => exact store_destOnly _ _ _ _ _
  | beq _ _ _ | bne _ _ _ | blt _ _ _ | bltu _ _ _ => exact branch_destOnly _ _ _ _ _
  | bge _ _ _ => exact branch_destOnly (fun a b => !lessSigned a b) _ _ _ _
  | bgeu _ _ _ => exact branch_destOnly (fun a b => !lessUnsigned a b) _ _ _ _
  | jal _ _ | jalr _ _ _ => exact jumpAndLink_destOnly _ _
  | _ => exact writeBack_destOnly _ _

/-! ## One instruction -/

/-- An instruction has its own `rd` as destination; one without any does the same with `x0` in its place. -/
theorem withDest_dest (i : Instr) : withDest ((dest i).getD 0#5) i = i := by
  cases i <;> rfl

/-- The registers after an instruction: those of before, or those with its own `rd` written (R23). -/
theorem exec_regs {i : Instr} {s t : State} (h : exec i s = .next t) :
    t.regs = s.regs ∨ ∃ v, t.regs = Regs.write s.regs ((dest i).getD 0#5) v := by
  rw [← withDest_dest i] at h
  cases exec_destOnly i s with
  | ignores u hregs hu =>
    obtain rfl : u = t := by simpa [hu] using h
    exact .inl hregs
  | writes u v hregs hu =>
    obtain rfl : u.writeReg _ v = t := by simpa [hu] using h
    exact .inr ⟨v, by rw [State.writeReg_regs, hregs]⟩

/-- A register that is not the instruction's `rd`, or is `x0`, reads as before (R22, R23). -/
theorem exec_readReg {i : Instr} {s t : State} (h : exec i s = .next t) {r : RegIdx}
    (hr : r = (dest i).getD 0#5 → r = 0#5) : t.readReg r = s.readReg r := by
  obtain hregs | ⟨v, hregs⟩ := exec_regs h
  · rw [State.readReg, hregs, State.readReg]
  · rw [State.readReg, hregs, Regs.read_write, if_neg fun ⟨hrd, hne⟩ => hne (hrd ▸ hr hrd), State.readReg]

/-- Settles O19: each register named is not the `rd`, or both are `x0`. -/
theorem onlyTheDestinationRegisterChanges : Obligations.OnlyTheDestinationRegisterChanges := by
  intro i s t hexec
  refine ⟨fun r hr => exec_readReg hexec fun hrd => ?_, fun hx0 r => exec_readReg hexec fun hrd => ?_⟩
  · cases hd : dest i with
    | none => simpa [hd] using hrd
    | some q => exact absurd (by simpa [hd] using hrd.symm) hr
  · simpa [hx0] using hrd

/-- Settles O27: the rules of one register's read and write, and the destination decides nothing but which register is
written, so with `x0` for it the same state results but for that register. -/
theorem registerZeroIsHardWired : Obligations.RegisterZeroIsHardWired := by
  refine ⟨fun s v => ⟨s.readReg_zero, s.writeReg_zero v, fun r hr => s.readReg_writeReg_same hr v,
    fun r q hq => s.readReg_writeReg_ne hq v⟩, fun i r s t hexec => ?_⟩
  cases exec_destOnly i s with
  | ignores u hregs hu =>
    obtain rfl : u = t := by simpa [hu] using hexec
    rw [hu, ← hregs]
  | writes u v hregs hu =>
    obtain rfl : u.writeReg r v = t := by simpa [hu] using hexec
    rw [hu, State.writeReg_zero, ← hregs]
    rfl

end Sys2Proof.Machine
end

section
/-! PROOFS. Where the pc goes (10_state.md rule R25; 44_branches.md R202; 45_jumps.md R210, R211): one lemma for each shape of
the meanings, then one instruction, then runs. -/

namespace Sys2Proof.Machine

/-! ## The conditions that a branch negates (R197, R199, R201) -/

theorem bne_word (a b : Word) : (a != b) = decide (a ≠ b) := by
  simp only [bne, beq_eq_decide, ne_eq, decide_not]

theorem not_lessSigned (a b : Word) : (!lessSigned a b) = decide (b.toInt ≤ a.toInt) := by
  simp only [lessSigned, ← Int.not_lt, decide_not]

theorem not_lessUnsigned (a b : Word) : (!lessUnsigned a b) = decide (b.toNat ≤ a.toNat) := by
  simp only [lessUnsigned, ← Nat.not_lt, decide_not]

/-! ## The shapes of the meanings, when they leave the Hart `Running` -/

/-- A fault leaves no `Running` Hart. -/
theorem raise_ne_running {s t : State} {r : Raise} (h : raise s r = .next t) (hrun : t.run = .running) : False := by
  injection h with h
  subst h
  cases hrun

theorem writeBack_pc {s t : State} {rd : RegIdx} {v : Word} (h : writeBack s rd v = .next t) : t.pc = s.pc + 4 := by
  injection h with h
  subst h
  rfl

theorem load_pc {s t : State} {w : Width} {ext : Word → Word} {rd rs1 : RegIdx} {imm : BitVec 12}
    (h : load w ext rd rs1 imm s = .next t) (hrun : t.run = .running) : t.pc = s.pc + 4 := by
  cases hr : memRead s (effectiveAddress s rs1 imm) w with
  | ok v => exact writeBack_pc (load_ok hr ▸ h)
  | error r => exact (raise_ne_running (load_error hr ▸ h) hrun).elim

theorem store_pc {s t : State} {w : Width} {rs1 rs2 : RegIdx} {imm : BitVec 12}
    (h : store w rs1 rs2 imm s = .next t) (hrun : t.run = .running) : t.pc = s.pc + 4 := by
  cases hw : memWrite s (effectiveAddress s rs1 imm) w (s.readReg rs2) with
  | ok u =>
    obtain ⟨-, -, hpc, -⟩ := memWrite_frame hw
    obtain rfl : u.advance = t := by simpa [store_ok hw] using h
    rw [State.advance_pc, State.nextPc, hpc]
  | error r => exact (raise_ne_running (store_error hw ▸ h) hrun).elim

/-- A completing branch goes to its target exactly when the proposition `p` that its condition decides holds (R202). -/
theorem branch_pc {s t : State} {c : Word → Word → Bool} {rs1 rs2 : RegIdx} {off : BitVec 13} {p : Prop} [Decidable p]
    (hc : c (s.readReg rs1) (s.readReg rs2) = decide p) (h : branch c rs1 rs2 off s = .next t)
    (hrun : t.run = .running) : t.pc = (if p then some (pcPlus s off.toInt) else none).getD (s.pc + 4) := by
  by_cases hp : p
  · have htaken : c (s.readReg rs1) (s.readReg rs2) = true := by simp [hc, hp]
    cases ht : checkTarget s (branchTarget s off) with
    | none =>
      obtain rfl : s.setPc (branchTarget s off) = t := by simpa [branch_taken htaken ht] using h
      rw [State.setPc_pc, if_pos hp, branchTarget_eq, Option.getD_some]
    | some r => exact (raise_ne_running (branch_rejected htaken ht ▸ h) hrun).elim
  · have hpass : c (s.readReg rs1) (s.readReg rs2) = false := by simp [hc, hp]
    obtain rfl : s.advance = t := by simpa [branch_not_taken hpass] using h
    rw [if_neg hp]
    rfl

theorem jumpAndLink_pc {s t : State} {rd : RegIdx} {a : Word} (h : jumpAndLink rd a s = .next t)
    (hrun : t.run = .running) : t.pc = a := by
  cases ha : checkTarget s a with
  | none =>
    obtain rfl : (s.writeReg rd s.nextPc).setPc a = t := by simpa [jumpAndLink_ok ha] using h
    rfl
  | some r => exact (raise_ne_running (jumpAndLink_rejected ha ▸ h) hrun).elim

/-- The target of JALR: the sum modulo 2^32, rounded down to an even number (R211; D17). -/
theorem jalrTarget_eq (s : State) (rs1 : RegIdx) (imm : BitVec 12) :
    jalrTarget s rs1 imm =
      BitVec.ofNat 32 ((BitVec.ofInt 32 ((s.readReg rs1).toNat + imm.toInt)).toNat / 2 * 2) := by
  rw [← add_sextImm (by decide), ← toNat_and_even, BitVec.ofNat_toNat, BitVec.setWidth_eq, jalrTarget]

/-! ## One instruction -/

/-- An instruction that completes goes to its target, if it takes a transfer, and to `pc + 4` otherwise (R25). -/
theorem exec_pc {i : Instr} {s t : State} (h : exec i s = .next t) (hrun : t.run = .running) :
    t.pc = (takenTarget s i).getD (s.pc + 4) := by
  cases i with
  | lb _ _ _ | lh _ _ _ | lw _ _ _ | lbu _ _ _ | lhu _ _ _ => exact load_pc h hrun
  | sb _ _ _ | sh _ _ _ | sw _ _ _ => exact store_pc h hrun
  | beq _ _ _ => exact branch_pc rfl h hrun
  | bne _ _ _ => exact branch_pc (c := fun a b => a != b) (bne_word _ _) h hrun
  | blt _ _ _ | bltu _ _ _ => exact branch_pc rfl h hrun
  | bge _ _ _ => exact branch_pc (c := fun a b => !lessSigned a b) (not_lessSigned _ _) h hrun
  | bgeu _ _ _ => exact branch_pc (c := fun a b => !lessUnsigned a b) (not_lessUnsigned _ _) h hrun
  | jal _ off => exact (jumpAndLink_pc h hrun).trans (jalTarget_eq s off)
  | jalr _ rs1 imm => exact (jumpAndLink_pc h hrun).trans (jalrTarget_eq s rs1 imm)
  | _ => exact writeBack_pc h

/-- The same of the step that executes the instruction (R36). -/
theorem step_pc {i : Instr} {s t : State} (hexecutes : Executes s i) (h : step s = .next t) (hrun : t.run = .running) :
    t.pc = (takenTarget s i).getD (s.pc + 4) := by
  obtain ⟨w, hfetch, hdecode⟩ := hexecutes
  rw [step_of_decode (running_of_step h) hfetch hdecode] at h
  exact exec_pc h hrun

/-! ## Runs -/

/-- A run that ends `Running` began `Running`: no step leads out of `Faulted` (R30). -/
theorem running_of_runSteps {n : Nat} {s : State} (h : (runSteps n s).run = .running) : s.run = .running := by
  cases hs : s.run with
  | running => rfl
  | faulted => rwa [runSteps_of_faulted hs, hs] at h

/-- N completing steps that take no transfer advance the pc by 4 N (R25). -/
theorem runSteps_pc {n : Nat} {s : State} (hrun : (runSteps n s).run = .running)
    (hseq : ∀ k < n, ∃ i, Executes (runSteps k s) i ∧ takenTarget (runSteps k s) i = none) :
    (runSteps n s).pc = s.pc + BitVec.ofNat 32 (4 * n) := by
  induction n generalizing s with
  | zero => simp [runSteps]
  | succ n ih =>
    obtain ⟨t, hstep⟩ := step_next_of_running (running_of_runSteps hrun)
    obtain ⟨i, hexecutes, hnone⟩ : ∃ i, Executes s i ∧ takenTarget s i = none := hseq 0 n.succ_pos
    rw [runSteps_succ hstep] at hrun ⊢
    have hfirst : t.pc = s.pc + 4 := by
      rw [step_pc hexecutes hstep (running_of_runSteps hrun), hnone, Option.getD_none]
    have hrest : (runSteps n t).pc = t.pc + BitVec.ofNat 32 (4 * n) := ih hrun fun k hk => by
      simpa only [runSteps_succ hstep] using hseq (k + 1) (Nat.succ_lt_succ hk)
    rw [hrest, hfirst, BitVec.add_assoc, Nat.mul_succ, Nat.add_comm (4 * n), BitVec.ofNat_add]
    rfl

/-- Settles O15: fault entry leaves the pc, each shape of a meaning says where a completing instruction goes, and a run of
sequential ones adds up by induction. -/
theorem pcAdvancesByFourOrToTheTarget : Obligations.PcAdvancesByFourOrToTheTarget := by
  refine ⟨fun s t i hrun hexecutes hstep => ⟨fun hfaulted => ?_, step_pc hexecutes hstep⟩, fun n s => runSteps_pc⟩
  obtain ⟨r, rfl⟩ := (step_ending hstep).fault_of_faulted hrun hfaulted
  rfl

end Sys2Proof.Machine
end

section
/-! PROOFS. The log is written and never read (20_memory.md rules R53, R59; 70_reset_and_hazards.md R298): the bytes already in
it decide nothing, and the drains of the host join to the whole of it. -/

namespace Sys2Proof.Machine

/-! ## The Hart with a longer logged past -/

/-- The Hart with `past` put before its log. -/
def State.withPast (s : State) (past : List Byte) : State := s.withLog (past ++ s.log)

/-- An outcome with its next state, if it has one, changed by `f`. -/
def mapNext (f : State → State) : Result → Result
  | .next t    => .next (f t)
  | .fault q   => .fault q
  | .refused q => .refused q

/-- A meaning that the logged past does not steer: putting bytes before the log and executing come to the same in either
order. -/
def IgnoresPast (f : State → Result) : Prop :=
  ∀ (s : State) (past : List Byte), f (s.withPast past) = mapNext (State.withPast · past) (f s)

/-! ## The operations that look at a state -/

theorem fetch_withPast (s : State) (past : List Byte) : fetch (s.withPast past) = fetch s := rfl

theorem checkTarget_withPast (s : State) (past : List Byte) (t : Word) :
    checkTarget (s.withPast past) t = checkTarget s t := rfl

/-- A read inside the log block answers 0, so no read sees the past (R53). -/
theorem memRead_withPast (s : State) (past : List Byte) (a : Word) (w : Width) :
    memRead (s.withPast past) a w = memRead s a w := rfl

/-- A write appends behind the past, or leaves the log (R54). -/
theorem memWrite_withPast (s : State) (past : List Byte) (a : Word) (w : Width) (v : Word) :
    memWrite (s.withPast past) a w v = (memWrite s a w v).map (State.withPast · past) := by
  have hleaves : leavesArena (s.withPast past) a w.bytes = leavesArena s a w.bytes := rfl
  have hplace : place (s.withPast past).params.ioMap a.toNat w.bytes = place s.params.ioMap a.toNat w.bytes := rfl
  unfold memWrite
  rw [hleaves, hplace]
  cases leavesArena s a w.bytes with
  | true => rfl
  | false =>
    cases place s.params.ioMap a.toNat w.bytes with
    | plain | straddle => rfl
    | inside kind o =>
      cases kind with
      | log =>
        have hassoc : past ++ s.log ++ bytesOf v w.bytes = past ++ (s.log ++ bytesOf v w.bytes) :=
          List.append_assoc _ _ _
        exact congrArg (fun l => Except.ok (s.withLog l)) hassoc
      | sensor | actuator | reserved => rfl

/-! ## The shapes of the meanings -/

theorem raise_ignoresPast (r : Raise) : IgnoresPast (fun s => raise s r) := fun _ _ => rfl

theorem load_ignoresPast (w : Width) (ext : Word → Word) (rd rs1 : RegIdx) (imm : BitVec 12) :
    IgnoresPast (load w ext rd rs1 imm) := fun s past => by
  have hpast := memRead_withPast s past (effectiveAddress s rs1 imm) w
  cases h : memRead s (effectiveAddress s rs1 imm) w with
  | ok v =>
    rw [load_ok h, load_ok (s := s.withPast past) (hpast.trans h)]
    rfl
  | error r =>
    rw [load_error h, load_error (s := s.withPast past) (hpast.trans h)]
    exact raise_ignoresPast r s past

theorem store_ignoresPast (w : Width) (rs1 rs2 : RegIdx) (imm : BitVec 12) :
    IgnoresPast (store w rs1 rs2 imm) := fun s past => by
  have hpast := memWrite_withPast s past (effectiveAddress s rs1 imm) w (s.readReg rs2)
  cases h : memWrite s (effectiveAddress s rs1 imm) w (s.readReg rs2) with
  | ok t =>
    rw [h] at hpast
    rw [store_ok h, store_ok (s := s.withPast past) hpast]
    rfl
  | error r =>
    rw [h] at hpast
    rw [store_error h, store_error (s := s.withPast past) hpast]
    exact raise_ignoresPast r s past

theorem branch_ignoresPast (c : Word → Word → Bool) (rs1 rs2 : RegIdx) (off : BitVec 13) :
    IgnoresPast (branch c rs1 rs2 off) := fun s past => by
  have hpast := checkTarget_withPast s past (branchTarget s off)
  cases h : c (s.readReg rs1) (s.readReg rs2) with
  | false =>
    rw [branch_not_taken h, branch_not_taken (s := s.withPast past) h]
    rfl
  | true =>
    cases ht : checkTarget s (branchTarget s off) with
    | none =>
      rw [branch_taken h ht, branch_taken (s := s.withPast past) h (hpast.trans ht)]
      rfl
    | some r =>
      rw [branch_rejected h ht, branch_rejected (s := s.withPast past) h (hpast.trans ht)]
      exact raise_ignoresPast r s past

theorem jumpAndLink_ignoresPast (rd : RegIdx) (t : Word) : IgnoresPast (jumpAndLink rd t) := fun s past => by
  have hpast := checkTarget_withPast s past t
  cases h : checkTarget s t with
  | none =>
    rw [jumpAndLink_ok h, jumpAndLink_ok (hpast.trans h)]
    rfl
  | some r =>
    rw [jumpAndLink_rejected h, jumpAndLink_rejected (hpast.trans h)]
    exact raise_ignoresPast r s past

/-- No instruction is steered by the logged past. -/
theorem exec_ignoresPast (i : Instr) : IgnoresPast (exec i) := by
  cases i with
  | lb _ _ _ | lh _ _ _ | lw _ _ _ | lbu _ _ _ | lhu _ _ _ => exact load_ignoresPast _ _ _ _ _
  | sb _ _ _ | sh _ _ _ | sw _ _ _ => exact store_ignoresPast _ _ _ _
  | beq _ _ _ | bne _ _ _ | blt _ _ _ | bltu _ _ _ => exact branch_ignoresPast _ _ _ _
  | bge _ _ _ => exact branch_ignoresPast (fun a b => !lessSigned a b) _ _ _
  | bgeu _ _ _ => exact branch_ignoresPast (fun a b => !lessUnsigned a b) _ _ _
  | jal rd off => exact fun s => jumpAndLink_ignoresPast rd (jalTarget s off) s
  | jalr rd rs1 imm => exact fun s => jumpAndLink_ignoresPast rd (jalrTarget s rs1 imm) s
  | _ => exact fun _ _ => rfl -- a value of the registers and the pc, written back

/-! ## The step -/

theorem step_of_decode_error {s : State} {w : Word} {c : Reject} (hrun : s.run = .running) (hfetch : fetch s = .ok w)
    (hdecode : decode w = .error c) : step s = raise s ⟨.illegalInstruction, w⟩ := by
  simp [step, hrun, hfetch, hdecode]

theorem step_of_faulted {s : State} (h : s.run = .faulted) : step s = .fault (.hartFaulted s.fault) := by
  simp [step, h]

/-- The fetch looks at the pc, the parameters and memory alone, so both Harts fault alike or execute one instruction. -/
theorem step_ignoresPast : IgnoresPast step := fun s past => by
  have hpast := fetch_withPast s past
  cases hrun : s.run with
  | faulted =>
    rw [step_of_faulted hrun, step_of_faulted (s := s.withPast past) hrun]
    rfl
  | running =>
    obtain ⟨r, hfetch, hstep⟩ | ⟨w, c, hfetch, hdecode, hstep⟩ | ⟨w, i, hfetch, hdecode, hstep⟩ := step_running hrun
    · rw [hstep, step_of_fetch_error (s := s.withPast past) hrun (hpast.trans hfetch)]
      exact raise_ignoresPast r s past
    · rw [hstep, step_of_decode_error (s := s.withPast past) hrun (hpast.trans hfetch) hdecode]
      exact raise_ignoresPast _ s past
    · rw [hstep, step_of_decode (s := s.withPast past) hrun (hpast.trans hfetch) hdecode]
      exact exec_ignoresPast i s past

/-- Settles O20: every instruction ends in a shape of a meaning that the past does not steer, and so does a step that
faults before it executes. -/
theorem stepCannotObserveTheLog : Obligations.StepCannotObserveTheLog := by
  intro s bytes
  refine (step_ignoresPast s bytes).trans ?_
  cases step s <;> rfl

/-! ## The drains of the host -/

/-- Every run leaves the log it began with as the beginning of its own (R59). -/
theorem runSteps_log_prefix (s : State) (n : Nat) : s.log <+: (runSteps n s).log := by
  refine runSteps_keeps (P := fun t => s.log <+: t.log) (fun t u hprefix hstep => ?_) (List.prefix_refl s.log) n
  obtain ⟨bytes, -, hlog⟩ := logIsAppendOnly t u hstep
  exact hprefix.trans (hlog ▸ List.prefix_append t.log bytes)

/-- Settles O59: the run only appends, so the second drain is what it appended. -/
theorem drainsJoinToTheLog : Obligations.DrainsJoinToTheLog := by
  intro s n drained hdrained
  obtain ⟨rest, hrest⟩ := runSteps_log_prefix s n
  simp only [readLog, ← hrest, List.drop_left, List.drop_append_of_le_length hdrained]

end Sys2Proof.Machine
end

section
/-! PROOFS. Loads and stores place by place (20_memory.md rules R50 to R63; 42_loads.md R170; 43_stores.md R185): what a read
answers, and what a store leaves in plain memory, the log, the actuator bytes and the reserved blocks. -/

namespace Sys2Proof.Machine

/-! ## Bounds (R56, R170) -/

/-- Settles O47: the bounds check compares unbounded integers and comes first, and the address is a sum modulo 2^32. -/
theorem boundsCheckNeverWraps : Obligations.BoundsCheckNeverWraps := by
  refine ⟨fun s a v w => ⟨⟨fun h => ?_, fun h => memRead_outOfBounds (Nat.not_le_of_lt h)⟩,
    ⟨fun h => ?_, fun h => memWrite_outOfBounds (Nat.not_le_of_lt h) v⟩⟩, fun s rs1 imm => ?_⟩
  · obtain ⟨-, hlt⟩ | ⟨hr, -⟩ := memRead_error h
    · exact hlt
    · cases hr
  · obtain ⟨-, hlt⟩ | ⟨hr, -⟩ | ⟨hr, -⟩ := memWrite_error h
    · exact hlt
    · cases hr
    · cases hr
  · rw [effectiveAddress, add_sextImm (by decide), BitVec.toNat_ofInt, Int.toNat_of_nonneg (Int.emod_nonneg _ (by decide))]
    rfl

/-! ## What a read answers, place by place (R53) -/

theorem memRead_plain {s : State} {a : Word} {w : Width} (hin : InArena s.params a.toNat w.bytes)
    (hout : OutsideBlocks s.params a.toNat w.bytes) :
    memRead s a w = .ok (wordOf (readBytes (Memory.read s.mem) a.toNat w.bytes)) := by
  have hstays := (leavesArena_false_iff s a w.bytes).2 hin
  simp [memRead, hstays, place_of_outside hout]

theorem memRead_sensor {s : State} (hp : s.params.Ok) {a : Word} {w : Width}
    (h : WithinBlock s.params.ioMap.sensor a.toNat w.bytes) :
    memRead s a w
      = .ok (wordOf (readBytes (byteAt s.sensor) (a.toNat - s.params.ioMap.sensor.base) w.bytes)) := by
  have hm : (BlockKind.sensor, s.params.ioMap.sensor) ∈ s.params.ioMap.blocks := mem_blocks.2 (.inr (.inl rfl))
  have hstays := (leavesArena_false_iff s a w.bytes).2 (inArena_of_within hp hm w.bytes_pos h)
  simp [memRead, hstays, place_of_within hp hm w.bytes_pos h]

/-- Settles O50: an access wholly within a block is placed inside it, and a read of these kinds of block answers 0. -/
theorem logAndReservedReadZero : Obligations.LogAndReservedReadZero := by
  intro s a w hp b hb h
  obtain ⟨kind, hkind, hm⟩ : ∃ kind, (kind = .log ∨ kind = .reserved) ∧ (kind, b) ∈ s.params.ioMap.blocks := by
    simp only [List.mem_cons, List.not_mem_nil, or_false] at hb
    obtain rfl | rfl | rfl | rfl := hb
    · exact ⟨.log, by simp, by simp [IoMap.blocks]⟩
    all_goals exact ⟨.reserved, by simp, by simp [IoMap.blocks]⟩
  have hstays := (leavesArena_false_iff s a w.bytes).2 (inArena_of_within hp hm w.bytes_pos h)
  have hplace := place_of_within hp hm w.bytes_pos h
  obtain rfl | rfl := hkind <;> simp [memRead, hstays, hplace]

/-! ## What a store leaves in plain memory (R54) -/

/-- The bytes of a value laid into memory, and every other byte as before. -/
theorem read_writeBytes_bytesOf {m : Memory} (hm : Memory.wf m) (a : Nat) (v : Word) (n b : Nat) :
    Memory.read (Memory.writeBytes m a (bytesOf v n)) b
      = if a ≤ b ∧ b < a + n then byteOf v (b - a) else Memory.read m b := by
  rw [Memory.read_writeBytes hm, bytesOf_length]
  split
  · exact bytesOf_getD v (by omega)
  · rfl

theorem read_writeBytes_bytesOf_add {m : Memory} (hm : Memory.wf m) (a : Nat) (v : Word) {n k : Nat} (hk : k < n) :
    Memory.read (Memory.writeBytes m a (bytesOf v n)) (a + k) = byteOf v k := by
  rw [read_writeBytes_bytesOf hm, if_pos (by omega), Nat.add_sub_cancel_left]

/-- Settles O48: outside the blocks the read answers the bytes there, the write lays its own bytes there, and the fetch passes
its checks. -/
theorem gapsArePlainMemory : Obligations.GapsArePlainMemory := by
  intro s a v w hin hout
  refine ⟨⟨_, memRead_plain hin hout, fun k hk => byteOf_wordOf_readBytes _ _ hk⟩,
    fun hm => ⟨_, memWrite_plain hin hout v, read_writeBytes_bytesOf hm a.toNat v w.bytes⟩, fun hw halign => ?_⟩
  subst hw
  refine ⟨_, fetch_plain (s := { s with pc := a }) halign hin hout, fun k hk => ?_⟩
  exact (byteOf_wordOf_readBytes _ _ hk).trans (if_pos hk)

/-! ## Stores to devices (R59, R61, R62) -/

/-- The three stores are one meaning at the three widths (R185). -/
theorem exec_store_of_mem {rs1 rs2 : RegIdx} {imm : BitVec 12} {i : Instr} {n : Nat}
    (h : (i, n) ∈ [(Instr.sb rs1 rs2 imm, 1), (Instr.sh rs1 rs2 imm, 2), (Instr.sw rs1 rs2 imm, 4)]) :
    ∃ w : Width, w.bytes = n ∧ ∀ s, exec i s = store w rs1 rs2 imm s := by
  simp only [List.mem_cons, List.not_mem_nil, or_false, Prod.mk.injEq] at h
  obtain ⟨rfl, rfl⟩ | ⟨rfl, rfl⟩ | ⟨rfl, rfl⟩ := h
  · exact ⟨.byte, rfl, fun _ => rfl⟩
  · exact ⟨.half, rfl, fun _ => rfl⟩
  · exact ⟨.word, rfl, fun _ => rfl⟩

/-- Settles O43: the write appends its bytes to the log, and the store then advances the pc. -/
theorem storesToTheLogAppend : Obligations.StoresToTheLogAppend := by
  rintro s rs1 rs2 imm hp ⟨i, n⟩ he h
  obtain ⟨w, rfl, hexec⟩ := exec_store_of_mem he
  refine ⟨_, (hexec s).trans (store_ok (memWrite_log hp h _)), ?_⟩
  exact ⟨rfl, fun _ => rfl, rfl, rfl, fun _ => rfl, ⟨rfl, rfl, rfl⟩, rfl⟩

/-- Settles O45: the write inside a reserved block answers the state it was given, and the store then advances the pc. -/
theorem storesToReservedBlocksAreIgnored : Obligations.StoresToReservedBlocksAreIgnored := by
  rintro s rs1 rs2 imm hp ⟨i, n⟩ he b hb h
  obtain ⟨w, rfl, hexec⟩ := exec_store_of_mem he
  exact (hexec s).trans (store_ok (memWrite_reserved hp hb h _))

theorem guestByte_withAct_inBlock {s : State} (hp : s.params.Ok) {a : Nat} (h : InBlock s.params.ioMap.act a)
    (bytes : List Byte) : guestByte (s.withAct bytes) a = byteAt bytes (a - s.params.ioMap.act.base) :=
  guestByte_act (s := s.withAct bytes) hp h

/-- The actuator bytes are seen in their own block alone (R61). -/
theorem guestByte_withAct_of_not {s : State} {a : Nat} (h : ¬InBlock s.params.ioMap.act a) (bytes : List Byte) :
    guestByte (s.withAct bytes) a = guestByte s a := by
  have hsame : ¬InBlock (s.withAct bytes).params.ioMap.act a := h
  simp only [guestByte, if_neg h, if_neg hsame]
  rfl

/-- The bytes laid into the actuator block are what a data read sees there, and every other byte it sees is as before (R61). -/
theorem guestByte_withAct_layBytes {s : State} (hp : s.params.Ok) (hlen : s.act.length = s.params.ioMap.act.len)
    {a n : Nat} (hn : 0 < n) (h : WithinBlock s.params.ioMap.act a n) (v : Word) (b : Nat) :
    guestByte (s.withAct (layBytes s.act (a - s.params.ioMap.act.base) (bytesOf v n))) b
      = if a ≤ b ∧ b < a + n then byteOf v (b - a) else guestByte s b := by
  obtain ⟨hlo, hhi⟩ := of_decide_eq_true ((covers_iff_within _ a hn).2 h)
  by_cases hb : InBlock s.params.ioMap.act b
  · obtain ⟨hblo, hbhi⟩ := hb
    rw [guestByte_withAct_inBlock hp ⟨hblo, hbhi⟩, guestByte_act hp ⟨hblo, hbhi⟩,
      byteAt_layBytes _ _ _ _ (by rw [bytesOf_length]; omega), bytesOf_length]
    by_cases hab : a ≤ b ∧ b < a + n
    · rw [if_pos (by omega), if_pos hab, bytesOf_getD v (by omega)]
      congr 1
      omega
    · rw [if_neg (by omega), if_neg hab]
  · have hab : ¬(a ≤ b ∧ b < a + n) := fun hab => hb ⟨by omega, by omega⟩
    rw [if_neg hab, guestByte_withAct_of_not hb]

/-- Settles O44: the write lays its bytes into the actuator bytes, where a data read sees them, and the store then advances
the pc. -/
theorem storesToTheActuatorsAreKept : Obligations.StoresToTheActuatorsAreKept := by
  rintro s rs1 rs2 imm hp hlen ⟨i, n⟩ he h
  obtain ⟨w, rfl, hexec⟩ := exec_store_of_mem he
  have hguest := guestByte_withAct_layBytes hp hlen w.bytes_pos h (s.readReg rs2)
  refine ⟨_, (hexec s).trans (store_ok (memWrite_act hp h _)), layBytes_length _ _ _, fun k hk => ?_,
    fun a ha => (hguest a).trans (if_neg ha), fun _ => rfl, rfl, rfl, fun _ => rfl, ⟨rfl, rfl, rfl⟩, rfl⟩
  refine (hguest _).trans ?_
  rw [if_pos (by omega), Nat.add_sub_cancel_left]
  rfl

end Sys2Proof.Machine
end

section
/-! PROOFS. What is read is what was supplied last: by a store, seen by later reads, narrow loads and fetches, or by the host's
snapshot (20_memory.md rules R51, R55, R60, R61, R65, R73; 70_reset_and_hazards.md R298). -/

namespace Sys2Proof.Machine

/-! ## Reads after writes (R65) -/

/-- A bit of a word is a bit of one of its bytes (R51). -/
theorem getLsbD_eq_byteOf (v : Word) (i : Nat) : v.getLsbD i = (byteOf v (i / 8)).getLsbD (i % 8) := by
  simp [byteOf, Nat.mod_lt, Nat.div_add_mod]

/-- A word whose bytes are `n` of the bytes of `v` from byte `k` on, and 0 above, as a number. -/
theorem toNat_of_bytes {u v : Word} {k n : Nat}
    (h : ∀ j < 4, byteOf u j = if j < n then byteOf v (k + j) else 0) :
    u.toNat = v.toNat / 2 ^ (8 * k) % 2 ^ (8 * n) := by
  apply Nat.eq_of_testBit_eq
  intro i
  rw [Nat.testBit_mod_two_pow, Nat.testBit_div_two_pow, BitVec.testBit_toNat, BitVec.testBit_toNat]
  by_cases hi : i < 32
  · have hbyte : (8 * k + i) / 8 = k + i / 8 := by omega
    have hbit : (8 * k + i) % 8 = i % 8 := by omega
    rw [getLsbD_eq_byteOf u, getLsbD_eq_byteOf v, h (i / 8) (by omega), Nat.add_comm i, hbyte, hbit]
    by_cases hn : i < 8 * n
    · simp [hn, show i / 8 < n by omega]
    · simp [hn, show ¬i / 8 < n by omega]
  · rw [BitVec.getLsbD_of_ge _ _ (by omega), BitVec.getLsbD_of_ge _ _ (by omega), Bool.and_false]

theorem guestByte_withMem_plain {s : State} {a n k : Nat} (h : OutsideBlocks s.params a n) (hk : k < n) (m : Memory) :
    guestByte (s.withMem m) (a + k) = Memory.read m (a + k) :=
  guestByte_plain (s := s.withMem m) h hk

/-- The bytes a completing write laid into plain memory or into the actuator block are what a data read sees there. -/
theorem guestByte_of_memWrite {s t : State} {a v : Word} {w : Width} (hp : s.params.Ok) (hm : Memory.wf s.mem)
    (hlen : s.act.length = s.params.ioMap.act.len)
    (hplace : OutsideBlocks s.params a.toNat w.bytes ∨ WithinBlock s.params.ioMap.act a.toNat w.bytes)
    (h : memWrite s a w v = .ok t) {k : Nat} (hk : k < w.bytes) : guestByte t (a.toNat + k) = byteOf v k := by
  obtain ⟨hin, -⟩ := memWrite_ok h
  obtain hout | hact := hplace
  · obtain rfl := Except.ok.inj ((memWrite_plain hin hout v).symm.trans h)
    exact (guestByte_withMem_plain hout hk _).trans (read_writeBytes_bytesOf_add hm _ v hk)
  · obtain rfl := Except.ok.inj ((memWrite_act hp hact v).symm.trans h)
    rw [guestByte_withAct_layBytes hp hlen w.bytes_pos hact, if_pos (by omega), Nat.add_sub_cancel_left]

theorem not_straddles_of_outside {p : Params} {a n : Nat} (h : OutsideBlocks p a n) : ¬Straddles p a n := by
  rintro ⟨e, he, ⟨k, hk, hb⟩, -⟩
  exact h k hk e he hb

/-- Settles O49: the read sees the bytes that the write laid there, and they are the low bytes of the value. -/
theorem readAfterWriteGivesTheValue : Obligations.ReadAfterWriteGivesTheValue := by
  intro s t a v w hp hm hlen hplace h
  obtain ⟨hin, -⟩ := memWrite_ok h
  obtain ⟨hparams, -⟩ := memWrite_frame h
  have hwhole : ¬Straddles s.params a.toNat w.bytes := hplace.elim not_straddles_of_outside
    (not_straddles_of_within hp (mem_blocks.2 (.inr (.inr (.inl rfl)))) w.bytes_pos)
  obtain ⟨u, hread, hbytes⟩ := memRead_spec (s := t) (hparams ▸ hp) (hparams ▸ hin) (hparams ▸ hwhole)
  refine ⟨u, hread, ?_⟩
  have hlow : ∀ k < 4, byteOf u k = if k < w.bytes then byteOf v (0 + k) else 0 := fun k hk => by
    rw [hbytes k hk, Nat.zero_add]
    split_ifs with hkw
    · exact guestByte_of_memWrite hp hm hlen hplace h hkw
    · rfl
  simpa using toNat_of_bytes hlow

/-! ## Narrow loads and the fetch after a stored word (R51, R65, R73) -/

theorem OutsideBlocks.sub {p : Params} {a n k m : Nat} (h : OutsideBlocks p a n) (hk : k + m ≤ n) :
    OutsideBlocks p (a + k) m := by
  intro j hj e he
  rw [Nat.add_assoc]
  exact h (k + j) (by omega) e he

/-- What SW leaves when its word is plain memory: the parameters, and the word there. -/
theorem exec_sw_plain {s t : State} {rs1 rs2 : RegIdx} {imm : BitVec 12} (hm : Memory.wf s.mem)
    (hin : InArena s.params (effectiveAddress s rs1 imm).toNat 4)
    (hout : OutsideBlocks s.params (effectiveAddress s rs1 imm).toNat 4) (h : exec (.sw rs1 rs2 imm) s = .next t) :
    t.params = s.params ∧
    ∀ k < 4, Memory.read t.mem ((effectiveAddress s rs1 imm).toNat + k) = byteOf (s.readReg rs2) k := by
  obtain rfl := Host.Outcome.next.inj ((store_ok (memWrite_plain (w := .word) hin hout _)).symm.trans h)
  exact ⟨rfl, fun k hk => read_writeBytes_bytesOf_add hm _ _ hk⟩

/-- A zero-extending load at byte `k` of a word in plain memory gives that part of it. -/
theorem load_within_word {t : State} {w : Width} {ext : Word → Word} {rd rb : RegIdx} {v : Word} {a k : Nat}
    (hext : ∀ x : Word, (ext x).toNat = x.toNat % 2 ^ (8 * w.bytes)) (hin : InArena t.params a 4)
    (hout : OutsideBlocks t.params a 4) (hbytes : ∀ j < 4, Memory.read t.mem (a + j) = byteOf v j) (hrd : rd ≠ 0#5)
    (hk : k + w.bytes ≤ 4) (hrb : (t.readReg rb).toNat = a + k) :
    ∃ u, load w ext rd rb 0#12 t = .next u ∧
      (u.readReg rd).toNat = v.toNat / 2 ^ (8 * k) % 2 ^ (8 * w.bytes) := by
  have haddr : (effectiveAddress t rb 0#12).toNat = a + k := by simpa [effectiveAddress, sextImm] using hrb
  have hread := memRead_plain (s := t) (a := effectiveAddress t rb 0#12) (w := w)
    (by rw [haddr]; simp only [InArena] at *; omega) (haddr ▸ hout.sub hk)
  refine ⟨_, load_ok hread, ?_⟩
  rw [State.advance_readReg, State.readReg_writeReg_same _ hrd, hext, haddr, toNat_of_bytes (v := v) (k := k), Nat.mod_mod]
  intro j hj
  rw [byteOf_wordOf_readBytes _ _ hj]
  split
  · rw [Nat.add_assoc, hbytes (k + j) (by omega)]
  · rfl

theorem zext8_toNat (v : Word) : (zext8 v).toNat = v.toNat % 2 ^ (8 * Width.byte.bytes) :=
  (BitVec.toNat_setWidth_of_le (by decide)).trans (BitVec.toNat_setWidth 8 v)

theorem zext16_toNat (v : Word) : (zext16 v).toNat = v.toNat % 2 ^ (8 * Width.half.bytes) :=
  (BitVec.toNat_setWidth_of_le (by decide)).trans (BitVec.toNat_setWidth 16 v)

/-- Settles O51: SW leaves its word's bytes in plain memory, and a narrow load at one of them reads from there on. -/
theorem narrowLoadsSeeTheStoredWord : Obligations.NarrowLoadsSeeTheStoredWord := by
  intro s t rs1 rs2 rd rb imm hm hin hout hexec hrd
  obtain ⟨hparams, hbytes⟩ := exec_sw_plain hm hin hout hexec
  rw [← hparams] at hin hout
  exact ⟨fun k hk hrb => load_within_word (w := .byte) zext8_toNat hin hout hbytes hrd hk hrb,
    fun k hk hrb => load_within_word (w := .half) zext16_toNat hin hout hbytes hrd (Nat.succ_le_succ hk) hrb⟩

/-- Settles O52: SW leaves its word's bytes in plain memory, and the fetch passes its checks and reads them. -/
theorem fetchSeesTheStoredWord : Obligations.FetchSeesTheStoredWord := by
  intro s t rs1 rs2 imm hm halign hin hout hexec
  obtain ⟨hparams, hbytes⟩ := exec_sw_plain hm hin hout hexec
  rw [← hparams] at hin hout
  rw [fetch_plain (s := { t with pc := effectiveAddress s rs1 imm }) halign hin hout]
  refine congrArg _ (word_ext fun k hk => ?_)
  rw [byteOf_wordOf_readBytes _ _ hk, if_pos hk]
  exact hbytes k hk

/-! ## The snapshot (R60, R298) -/

/-- A run leaves the parameters and the snapshot as they were (R33, R57). -/
theorem runSteps_params_sensor (s : State) (n : Nat) :
    (runSteps n s).params = s.params ∧ (runSteps n s).sensor = s.sensor := by
  refine runSteps_keeps (P := fun t => t.params = s.params ∧ t.sensor = s.sensor) (fun t u ht hstep => ?_) ⟨rfl, rfl⟩ n
  obtain ⟨hparams, hsensor⟩ := stepNeverChangesParametersOrSensor t u hstep
  exact ⟨hparams.trans ht.1, hsensor.trans ht.2⟩

/-- Settles O58: no step touches the parameters or the snapshot, so a read after the run sees the one supplied. -/
theorem sensorReadsGiveTheLastSnapshot : Obligations.SensorReadsGiveTheLastSnapshot := by
  intro snapshot s t n hlen hwrite
  obtain ⟨-, rfl⟩ := writeSensors_eq_some_iff.1 hwrite
  refine ⟨rfl, fun a w hp h => ?_⟩
  obtain ⟨hparams, hsensor⟩ := runSteps_params_sensor (s.withSensor snapshot) n
  rw [State.withSensor_params] at hparams
  refine ⟨_, memRead_sensor (hparams ▸ hp) (hparams ▸ h), fun k hk => ?_⟩
  rw [hparams, hsensor]
  exact byteOf_wordOf_readBytes _ _ hk

end Sys2Proof.Machine
end

section
/-! PROOFS. The decoder and the encoder are each other's inverse: a word decodes to an instruction exactly when the instruction
is well-formed and the word is its encoding (30_encoding.md rules R91 to R105). -/

namespace Sys2Proof

/-! ## A word is the encoding of its operands under its function codes (R92 to R97) -/

theorem encodeR_of_codes {w : Word} {f7 : BitVec 7} {f3 : BitVec 3} {op : BitVec 7} (hop : opcodeOf w = op)
    (h3 : funct3Of w = f3) (h7 : funct7Of w = f7) : encodeR f7 (rs2Of w) (rs1Of w) f3 (rdOf w) op = w := by
  rw [← hop, ← h3, ← h7, encodeR_fields]

theorem encodeI_of_codes {w : Word} {f3 : BitVec 3} {op : BitVec 7} (hop : opcodeOf w = op) (h3 : funct3Of w = f3) :
    encodeI (immI w) (rs1Of w) f3 (rdOf w) op = w := by
  rw [← hop, ← h3, encodeI_fields]

theorem encodeS_of_codes {w : Word} {f3 : BitVec 3} {op : BitVec 7} (hop : opcodeOf w = op) (h3 : funct3Of w = f3) :
    encodeS (immS w) (rs2Of w) (rs1Of w) f3 op = w := by
  rw [← hop, ← h3, encodeS_fields]

theorem encodeB_of_codes {w : Word} {f3 : BitVec 3} {op : BitVec 7} (hop : opcodeOf w = op) (h3 : funct3Of w = f3) :
    encodeB (immB w) (rs2Of w) (rs1Of w) f3 op = w := by
  rw [← hop, ← h3, encodeB_fields]

theorem encodeU_of_opcode {w : Word} {op : BitVec 7} (hop : opcodeOf w = op) : encodeU (immU w) (rdOf w) op = w := by
  rw [← hop, encodeU_fields]

theorem encodeJ_of_opcode {w : Word} {op : BitVec 7} (hop : opcodeOf w = op) : encodeJ (immJ w) (rdOf w) op = w := by
  rw [← hop, encodeJ_fields]

theorem evenOffset_iff {n : Nat} (off : BitVec n) : evenOffset off = true ↔ off.getLsbD 0 = false := by
  rw [evenOffset, Bool.not_eq_true']

/-! ## What the decoder answers encodes to the word, opcode by opcode (R104) -/

/-- The instruction has an encoding, and it is `w`. -/
def Instr.EncodesTo (i : Instr) (w : Word) : Prop := i.WellFormed ∧ encode i = w

theorem decodeOp_encodesTo {w : Word} {i : Instr} (hop : opcodeOf w = 0b0110011#7) (h : decodeOp w = some i) :
    i.EncodesTo w := by
  unfold decodeOp at h
  split at h <;> cases h
  all_goals exact ⟨rfl, encodeR_of_codes hop ‹_› ‹_›⟩

/-- The three shifts fix funct7 too; the other six hold an immediate there (R103). -/
theorem decodeOpImm_encodesTo {w : Word} {i : Instr} (hop : opcodeOf w = 0b0010011#7) (h : decodeOpImm w = some i) :
    i.EncodesTo w := by
  unfold decodeOpImm at h
  split at h
  case h_7 h3 =>
    split_ifs at h with h7
    cases h
    exact ⟨rfl, encodeR_of_codes hop h3 h7⟩
  case h_8 h3 =>
    split_ifs at h <;> cases h
    all_goals exact ⟨rfl, encodeR_of_codes hop h3 ‹_›⟩
  all_goals cases h
  all_goals exact ⟨rfl, encodeI_of_codes hop ‹_›⟩

theorem decodeLoad_encodesTo {w : Word} {i : Instr} (hop : opcodeOf w = 0b0000011#7) (h : decodeLoad w = some i) :
    i.EncodesTo w := by
  unfold decodeLoad at h
  split at h <;> cases h
  all_goals exact ⟨rfl, encodeI_of_codes hop ‹_›⟩

theorem decodeStore_encodesTo {w : Word} {i : Instr} (hop : opcodeOf w = 0b0100011#7) (h : decodeStore w = some i) :
    i.EncodesTo w := by
  unfold decodeStore at h
  split at h <;> cases h
  all_goals exact ⟨rfl, encodeS_of_codes hop ‹_›⟩

theorem decodeBranch_encodesTo {w : Word} {i : Instr} (hop : opcodeOf w = 0b1100011#7) (h : decodeBranch w = some i) :
    i.EncodesTo w := by
  have heven := (evenOffset_iff _).2 (immB_even w)
  unfold decodeBranch at h
  split at h <;> cases h
  all_goals exact ⟨heven, encodeB_of_codes hop ‹_›⟩

theorem decodeWord_encodesTo {w : Word} {i : Instr} (h : decodeWord w = some i) : i.EncodesTo w := by
  unfold decodeWord at h
  split at h
  next hlui => cases h; exact ⟨rfl, encodeU_of_opcode hlui⟩
  next hauipc => cases h; exact ⟨rfl, encodeU_of_opcode hauipc⟩
  next hjal => cases h; exact ⟨(evenOffset_iff _).2 (immJ_even w), encodeJ_of_opcode hjal⟩
  next hjalr =>
    split_ifs at h with h3
    cases h
    exact ⟨rfl, encodeI_of_codes hjalr h3⟩
  next hbranch => exact decodeBranch_encodesTo hbranch h
  next hload => exact decodeLoad_encodesTo hload h
  next hstore => exact decodeStore_encodesTo hstore h
  next hopImm => exact decodeOpImm_encodesTo hopImm h
  next hop => exact decodeOp_encodesTo hop h
  next => cases h

/-! ## The case table finds every encoding (R104) -/

/-- The fields of an encoding are the ones it was made of; an offset is read back whole when it is even (R100, R102). -/
theorem decodeWord_encode {i : Instr} (h : i.WellFormed) : decodeWord (encode i) = some i := by
  cases i with
  | add | sub | sll | slt | sltu | xor | srl | sra | or | and => simp [encode, decodeWord, decodeOp]
  | addi | slti | sltiu | xori | ori | andi | slli | srli | srai => simp [encode, decodeWord, decodeOpImm]
  | lb | lh | lw | lbu | lhu => simp [encode, decodeWord, decodeLoad]
  | sb | sh | sw => simp [encode, decodeWord, decodeStore]
  | beq | bne | blt | bge | bltu | bgeu =>
    have heven := (evenOffset_iff _).1 h
    simp [encode, decodeWord, decodeBranch, immB_encodeB _ heven]
  | jal rd off =>
    have heven := (evenOffset_iff off).1 h
    simp [encode, decodeWord, immJ_encodeJ _ heven]
  | jalr | lui | auipc => simp [encode, decodeWord]

/-- A word decodes to `i` exactly when `i` has an encoding and the word is it. -/
theorem decode_ok_iff_encodesTo {w : Word} {i : Instr} : decode w = .ok i ↔ i.EncodesTo w := by
  rw [decode_ok_iff]
  refine ⟨decodeWord_encodesTo, ?_⟩
  rintro ⟨hwf, rfl⟩
  exact decodeWord_encode hwf

/-! ## The statements -/

/-- Settles O1: the case table finds every encoding. -/
theorem decodeOfEncodeIsTheInstruction : Obligations.DecodeOfEncodeIsTheInstruction :=
  fun _ hwf => decode_ok_iff_encodesTo.2 ⟨hwf, rfl⟩

/-- Settles O2: each branch of the decoder answers an instruction whose encoding is the word. -/
theorem encodeOfDecodeIsTheWord : Obligations.EncodeOfDecodeIsTheWord := by
  intro w i h
  obtain ⟨-, hword⟩ := decode_ok_iff_encodesTo.1 h
  exact hword

/-- Settles O3: each branch of the decoder answers an instruction that has an encoding. -/
theorem decodedInstructionsAreWellFormed : Obligations.DecodedInstructionsAreWellFormed := by
  intro w i h
  obtain ⟨hwf, -⟩ := decode_ok_iff_encodesTo.1 h
  exact hwf

end Sys2Proof
end

section
/-! PROOFS. The opcode map is a second view of the case table: each instruction has one row of the map, the row of its
mnemonic, and a word that agrees with its encoding under the row's mask decodes to that mnemonic (30_encoding.md rules R104 to
R106). -/

namespace Sys2Proof

/-! ## What each mask keeps of a word -/

theorem and_maskR (w : Word) : w &&& 0xFE00707F#32 = encodeR (funct7Of w) 0 0 (funct3Of w) 0 (opcodeOf w) :=
  (maskR_iff w _ _ _).2 ⟨rfl, rfl, rfl⟩

theorem and_maskI (w : Word) : w &&& 0x0000707F#32 = encodeI 0 0 (funct3Of w) 0 (opcodeOf w) :=
  (maskI_iff w _ _).2 ⟨rfl, rfl⟩

theorem and_maskU (w : Word) : w &&& 0x0000007F#32 = encodeU 0 0 (opcodeOf w) :=
  (maskU_iff w _).2 rfl

/-! ## The row of an instruction -/

/-- The bits that the format of the instruction gives to no operand: opcode, funct3 and funct7 (R, and the shifts), opcode
alone (U and J), opcode and funct3 (I, S and B). -/
def Instr.mask : Instr → Word
  | .add _ _ _ | .sub _ _ _ | .sll _ _ _ | .slt _ _ _ | .sltu _ _ _ | .xor _ _ _ | .srl _ _ _ | .sra _ _ _
  | .or _ _ _ | .and _ _ _ | .slli _ _ _ | .srli _ _ _ | .srai _ _ _ => 0xFE00707F#32
  | .jal _ _ | .lui _ _ | .auipc _ _ => 0x0000007F#32
  | _ => 0x0000707F#32

/-- The mnemonic, and what the mask keeps of the encoding: no operand is left in it. -/
def Instr.row (i : Instr) : OpcodeRow := ⟨i.mnemonic, encode i &&& i.mask, i.mask⟩

/-- Under its mask an encoding is a fixed word, and the map lists it (R105). -/
theorem Instr.row_mem (i : Instr) : i.row ∈ opcodeMap := by
  cases i with
  | add | sub | sll | slt | sltu | xor | srl | sra | or | and | slli | srli | srai =>
    simp only [Instr.row, Instr.mask, Instr.mnemonic, encode, and_maskR, funct7Of_encodeR, funct3Of_encodeR, opcodeOf_encodeR]
    decide
  | addi | slti | sltiu | xori | ori | andi | lb | lh | lw | lbu | lhu | jalr =>
    simp only [Instr.row, Instr.mask, Instr.mnemonic, encode, and_maskI, funct3Of_encodeI, opcodeOf_encodeI]
    decide
  | sb | sh | sw =>
    simp only [Instr.row, Instr.mask, Instr.mnemonic, encode, and_maskI, funct3Of_encodeS, opcodeOf_encodeS]
    decide
  | beq | bne | blt | bge | bltu | bgeu =>
    simp only [Instr.row, Instr.mask, Instr.mnemonic, encode, and_maskI, funct3Of_encodeB, opcodeOf_encodeB]
    decide
  | lui | auipc =>
    simp only [Instr.row, Instr.mask, Instr.mnemonic, encode, and_maskU, opcodeOf_encodeU]
    decide
  | jal =>
    simp only [Instr.row, Instr.mask, Instr.mnemonic, encode, and_maskU, opcodeOf_encodeJ]
    decide

/-- The match word of a row is itself an encoding: that of the row's instruction with every operand 0. -/
theorem decodeWord_matchBits : ∀ row ∈ opcodeMap, (decodeWord row.matchBits).map Instr.row = some row := by decide

theorem exists_instr_of_row {row : OpcodeRow} (h : row ∈ opcodeMap) : ∃ i : Instr, i.row = row := by
  obtain ⟨i, -, hi⟩ := Option.map_eq_some_iff.1 (decodeWord_matchBits row h)
  exact ⟨i, hi⟩

theorem opcodeMap_mnemonics_nodup : (opcodeMap.map OpcodeRow.mnemonic).Nodup := by decide

/-- The map has one row for each mnemonic. -/
theorem Instr.row_eq_of_mnemonic {i j : Instr} (h : i.mnemonic = j.mnemonic) : i.row = j.row :=
  List.inj_on_of_nodup_map opcodeMap_mnemonics_nodup i.row_mem j.row_mem h

/-- The case table looks only at the function codes, which the mask keeps. -/
theorem decodeWord_of_masked {i : Instr} {w : Word} (h : w &&& i.mask = encode i &&& i.mask) :
    ∃ j, decodeWord w = some j ∧ j.mnemonic = i.mnemonic := by
  cases i with
  | add | sub | sll | slt | sltu | xor | srl | sra | or | and | slli | srli | srai =>
    obtain ⟨h7, h3, hop⟩ := (maskR_iff w _ _ _).1 (h.trans (and_maskR _))
    simp [decodeWord, decodeOp, decodeOpImm, hop, h3, h7, encode, Instr.mnemonic]
  | addi | slti | sltiu | xori | ori | andi | lb | lh | lw | lbu | lhu | sb | sh | sw | beq | bne | blt | bge | bltu | bgeu
  | jalr =>
    obtain ⟨h3, hop⟩ := (maskI_iff w _ _).1 (h.trans (and_maskI _))
    simp [decodeWord, decodeOpImm, decodeLoad, decodeStore, decodeBranch, hop, h3, encode, Instr.mnemonic]
  | jal | lui | auipc =>
    have hop := (maskU_iff w _).1 (h.trans (and_maskU _))
    simp [decodeWord, hop, encode, Instr.mnemonic]

/-! ## The statements -/

/-- Settles O4: an instruction with the row's mnemonic has that row, which its own word matches; and the row is that of some
instruction, whose codes a matching word shares. -/
theorem opcodeMapSelectsTheDecodedInstruction : Obligations.OpcodeMapSelectsTheDecodedInstruction := by
  intro row hrow w
  obtain ⟨i, rfl⟩ := exists_instr_of_row hrow
  constructor
  · rintro ⟨j, hdecode, hmnemonic⟩
    obtain ⟨-, rfl⟩ := decode_ok_iff_encodesTo.1 hdecode
    rw [← Instr.row_eq_of_mnemonic hmnemonic]
    rfl
  · intro h
    obtain ⟨j, hdecode, hmnemonic⟩ := decodeWord_of_masked h
    exact ⟨j, decode_ok_iff.2 hdecode, hmnemonic⟩

/-- Settles O5: a word that two rows select would decode to one instruction with both mnemonics, and no two rows share one. -/
theorem opcodeMapRowsAreExclusive : Obligations.OpcodeMapRowsAreExclusive := by
  refine ⟨rfl, (List.pairwise_map.1 opcodeMap_mnemonics_nodup).imp_of_mem ?_⟩
  rintro r q hr hq hne w ⟨hwr, hwq⟩
  obtain ⟨i, hi, hir⟩ := (opcodeMapSelectsTheDecodedInstruction r hr w).2 hwr
  obtain ⟨j, hj, hjq⟩ := (opcodeMapSelectsTheDecodedInstruction q hq w).2 hwq
  obtain rfl := Except.ok.inj (hi.symm.trans hj)
  exact hne (hir.symm.trans hjq)

/-- A word that decodes matches the row of its instruction (R106). -/
theorem exists_row_of_decode {w : Word} {i : Instr} (h : decode w = .ok i) :
    ∃ row ∈ opcodeMap, w &&& row.mask = row.matchBits :=
  ⟨i.row, i.row_mem, (opcodeMapSelectsTheDecodedInstruction i.row i.row_mem w).1 ⟨i, h, rfl⟩⟩

/-- Settles O10: a word that decodes would match a row, so the decoder refuses this one and the step raises. -/
theorem unmatchedWordRaisesIllegalInstruction : Obligations.UnmatchedWordRaisesIllegalInstruction := by
  intro s w hrun hfetch hnone
  cases hdecode : decode w with
  | ok i =>
    obtain ⟨row, hrow, hw⟩ := exists_row_of_decode hdecode
    exact absurd hw (hnone row hrow)
  | error c => exact Machine.step_of_decode_error hrun hfetch hdecode

end Sys2Proof
end

section
/-! PROOFS. The expansion of `li`: LUI's twenty bits and ADDI's sign-extended twelve add up to the constant (30_encoding.md rule
R111, 46_upper_immediate.md rule R222). -/

namespace Sys2Proof.Machine

theorem sextImm_toNat_mod {n : Nat} (hn : n ≤ 32) (imm : BitVec n) : (sextImm imm).toNat % 2 ^ n = imm.toNat := by
  rw [← BitVec.toNat_setWidth]
  congr 1
  ext i hi
  simp [sextImm, BitVec.getElem_signExtend, hi, Nat.lt_of_lt_of_le hi hn]

/-- A word whose low 12 bits are 0 is its upper 20 bits above them (R101). -/
theorem upperImm_of_aligned {w : Word} (h : w.toNat % 4096 = 0) : upperImm (w.extractLsb' 12 20) = w := by
  have hlow : w.extractLsb' 0 12 = 0#12 := BitVec.eq_of_toNat_eq (by simpa using h)
  calc upperImm (w.extractLsb' 12 20)
      = w.extractLsb' 12 20 ++ w.extractLsb' 0 12 := by rw [hlow]; rfl
    _ = w := (BitVec.extractLsb'_append_extractLsb'_eq_extractLsb' rfl).trans BitVec.extractLsb'_eq_self

/-- Taking away the low part, carry included, leaves a multiple of 4096, so LUI loses none of it. -/
theorem upperImm_hi20 (v : Word) : upperImm (hi20 v) = v - sextImm (lo12 v) := by
  apply upperImm_of_aligned
  have hlow : (sextImm (lo12 v)).toNat % 4096 = v.toNat % 4096 := by
    simpa [lo12] using sextImm_toNat_mod (by decide) (lo12 v)
  rw [BitVec.toNat_sub]
  omega

theorem upperImm_hi20_add_lo12 (v : Word) : upperImm (hi20 v) + sextImm (lo12 v) = v := by
  rw [upperImm_hi20, BitVec.sub_add_cancel]

/-- Settles O37: both instructions write `rd` and advance, and ADDI adds its part to the one that LUI left in `rd`. -/
theorem loadImmediateBuildsAnyConstant : Obligations.LoadImmediateBuildsAnyConstant := by
  intro s rd v hrd
  refine ⟨rfl, _, _, rfl, rfl, ?_, fun r hr => ?_, ?_⟩
  · simp [State.readReg_writeReg_same _ hrd, upperImm_hi20_add_lo12]
  · simp [State.readReg_writeReg_ne _ hr]
  · simp [State.nextPc, BitVec.add_assoc]

end Sys2Proof.Machine
end

section
/-! PROOFS. The function codes that the load, store, branch, JALR and OP opcodes leave unused (30_encoding.md rule R104; 40 R141,
42 R176, 43 R189, 44 R204, 45 R211): the case table has no instruction for them, and their class is `Unknown` (R238). -/

namespace Sys2Proof

/-! ## The class of a refused word (R238) -/

theorem extClass_of_opcode {w : Word} {op : BitVec 7} (hop : opcodeOf w = op)
    (hmem : op ∈ [0b0000011#7, 0b0100011#7, 0b1100011#7, 0b1100111#7]) : extClass w = .unknown := by
  have hlow := lowBits_eq w
  rw [hop] at hlow
  simp only [List.mem_cons, List.not_mem_nil, or_false] at hmem
  obtain rfl | rfl | rfl | rfl := hmem <;> simp [extClass, hlow, hop]

/-- A word of the OP opcode that is not of the M extension (R232, R233). -/
theorem extClass_of_op {w : Word} (hop : opcodeOf w = 0b0110011#7) (hm : funct7Of w ≠ 0b0000001#7) :
    extClass w = .unknown := by
  have hlow := lowBits_eq w
  rw [hop] at hlow
  simp [extClass, hlow, hop, hm]

theorem decode_unknown {w : Word} (hnone : decodeWord w = none) (hclass : extClass w = .unknown) :
    decode w = .error (.illegal .unknown) := by
  rw [decode_of_none hnone, hclass]

/-! ## The case table, opcode by opcode (R104) -/

theorem decodeLoad_none {w : Word} (h3 : funct3Of w ∈ [0b011#3, 0b110#3, 0b111#3]) : decodeLoad w = none := by
  simp only [List.mem_cons, List.not_mem_nil, or_false] at h3
  obtain h3 | h3 | h3 := h3 <;> simp [decodeLoad, h3]

theorem decodeBranch_none {w : Word} (h3 : funct3Of w ∈ [0b010#3, 0b011#3]) : decodeBranch w = none := by
  simp only [List.mem_cons, List.not_mem_nil, or_false] at h3
  obtain h3 | h3 := h3 <;> simp [decodeBranch, h3]

theorem decodeStore_none {w : Word} (h3 : funct3Of w ∉ [0b000#3, 0b001#3, 0b010#3]) : decodeStore w = none := by
  unfold decodeStore
  split
  case h_4 => rfl
  all_goals exact absurd (by simp [*]) h3

theorem decodeOp_none {w : Word} (h7 : funct7Of w ≠ 0b0000000#7)
    (hcodes : (funct7Of w, funct3Of w) ∉ [(0b0100000#7, 0b000#3), (0b0100000#7, 0b101#3)]) : decodeOp w = none := by
  unfold decodeOp
  split
  case h_11 => rfl
  case h_2 | h_8 => exact absurd (by simp [*]) hcodes
  all_goals exact absurd ‹_› h7

/-! ## What the decoder answers -/

section
variable {w : Word} {f7 : BitVec 7} {f3 : BitVec 3}

theorem decode_load_unused (hop : opcodeOf w = 0b0000011#7) (h3 : funct3Of w = f3)
    (hunused : f3 ∈ [0b011#3, 0b110#3, 0b111#3]) : decode w = .error (.illegal .unknown) :=
  decode_unknown (by simp [decodeWord, hop, decodeLoad_none (h3 ▸ hunused)]) (extClass_of_opcode hop (by decide))

theorem decode_store_unused (hop : opcodeOf w = 0b0100011#7) (h3 : funct3Of w = f3)
    (hunused : f3 ∉ [0b000#3, 0b001#3, 0b010#3]) : decode w = .error (.illegal .unknown) :=
  decode_unknown (by simp [decodeWord, hop, decodeStore_none (h3 ▸ hunused)]) (extClass_of_opcode hop (by decide))

theorem decode_branch_unused (hop : opcodeOf w = 0b1100011#7) (h3 : funct3Of w = f3)
    (hunused : f3 ∈ [0b010#3, 0b011#3]) : decode w = .error (.illegal .unknown) :=
  decode_unknown (by simp [decodeWord, hop, decodeBranch_none (h3 ▸ hunused)]) (extClass_of_opcode hop (by decide))

theorem decode_jalr_unused (hop : opcodeOf w = 0b1100111#7) (h3 : funct3Of w = f3) (hunused : f3 ≠ 0b000#3) :
    decode w = .error (.illegal .unknown) :=
  decode_unknown (by simp [decodeWord, hop, h3, hunused]) (extClass_of_opcode hop (by decide))

theorem decode_op_unused (hop : opcodeOf w = 0b0110011#7) (h7 : funct7Of w = f7) (h3 : funct3Of w = f3)
    (hzero : f7 ≠ 0b0000000#7) (hm : f7 ≠ 0b0000001#7)
    (hunused : (f7, f3) ∉ [(0b0100000#7, 0b000#3), (0b0100000#7, 0b101#3)]) :
    decode w = .error (.illegal .unknown) := by
  subst h7 h3
  exact decode_unknown (by simp [decodeWord, hop, decodeOp_none hzero hunused]) (extClass_of_op hop hm)

end

/-- Settles O8: the fields of each word are the ones it is written with, the case table has no line for them, and the class of
such a word is `Unknown`. -/
theorem unusedFunctionCodesAreRefused : Obligations.UnusedFunctionCodesAreRefused := by
  intro f7 rs2 rs1 rd imm f3
  exact ⟨decode_load_unused (opcodeOf_encodeI ..) (funct3Of_encodeI ..),
    decode_store_unused (opcodeOf_encodeR ..) (funct3Of_encodeR ..),
    decode_branch_unused (opcodeOf_encodeR ..) (funct3Of_encodeR ..),
    decode_jalr_unused (opcodeOf_encodeI ..) (funct3Of_encodeI ..),
    decode_op_unused (opcodeOf_encodeR ..) (funct7Of_encodeR ..) (funct3Of_encodeR ..)⟩

end Sys2Proof
end

section
/-! PROOFS. The register-register instructions (40_register_register.md rules R130 to R140): what their words decode to, and the
value that each leaves in `rd`. -/

namespace Sys2Proof.Machine

/-! ## An instruction that ends in a write-back, from its word -/

/-- The word of an instruction whose meaning is a write-back of `v` decodes to it, and it writes `v` to `rd`, advances, and does
nothing else. -/
theorem fromWord_writesReg {s : State} {i : Instr} {rd : RegIdx} {v : Word} (hwf : i.WellFormed)
    (hexec : exec i s = writeBack s rd v) :
    decode (encode i) = .ok i ∧ ∃ t, exec i s = .next t ∧ WritesRegAndAdvances s t rd v :=
  ⟨decodeOfEncodeIsTheInstruction i hwf, _, hexec, writesRegAndAdvances_writeBack s rd v⟩

/-- The same, with what the value written is known to meet. -/
theorem fromWord_writesReg_of {s : State} {i : Instr} {rd : RegIdx} {v : Word} {P : Word → Prop} (hwf : i.WellFormed)
    (hexec : exec i s = writeBack s rd v) (hv : P v) :
    decode (encode i) = .ok i ∧ ∃ t u, exec i s = .next t ∧ WritesRegAndAdvances s t rd u ∧ P u := by
  obtain ⟨hdecode, t, ht, hwrites⟩ := fromWord_writesReg hwf hexec
  exact ⟨hdecode, t, v, ht, hwrites, hv⟩

/-! ## The values as numbers -/

/-- A difference modulo 2^32 is the integer difference, reduced (R132). -/
theorem sub_toNat_emod (a b : Word) : ((a - b).toNat : Int) = ((a.toNat : Int) - b.toNat) % 2 ^ 32 := by
  have ha := a.isLt
  have hb := b.isLt
  rw [BitVec.toNat_sub]
  omega

/-- `b[4:0]` is `b` modulo 32 (R103). -/
theorem shiftAmount_toNat (b : Word) : (shiftAmount b).toNat = b.toNat % 32 := by
  simp [shiftAmount]

theorem shiftLeft_toNat (a : Word) (n : BitVec 5) : (shiftLeft a n).toNat = a.toNat * 2 ^ n.toNat % 2 ^ 32 := by
  rw [shiftLeft, BitVec.toNat_shiftLeft, Nat.shiftLeft_eq]

theorem shiftRightLogical_toNat (a : Word) (n : BitVec 5) : (shiftRightLogical a n).toNat = a.toNat / 2 ^ n.toNat := by
  rw [shiftRightLogical, BitVec.toNat_ushiftRight, Nat.shiftRight_eq_div_pow]

/-- Division of integers by a power of two is rounded down (R138). -/
theorem shiftRightArith_toInt (a : Word) (n : BitVec 5) : (shiftRightArith a n).toInt = a.toInt / 2 ^ n.toNat := by
  rw [shiftRightArith, BitVec.toInt_sshiftRight, Int.shiftRight_eq_div_pow]
  rfl

theorem flagWord_decide (p : Prop) [Decidable p] : flagWord (decide p) = if p then 1#32 else 0#32 := by
  simp [flagWord]

/-! ## The statements -/

/-- Settles O28: both instructions end in a write-back, of the sum and of the difference. -/
theorem addSubResults : Obligations.AddSubResults := by
  intro s rd rs1 rs2
  refine ⟨fromWord_writesReg_of (i := .add rd rs1 rs2) rfl rfl ?_, fromWord_writesReg_of (i := .sub rd rs1 rs2) rfl rfl ?_⟩
  · exact BitVec.toNat_add _ _
  · exact sub_toNat_emod _ _

/-- Settles O29: the shifts end in a write-back of the value shifted by `x[rs2][4:0]`. -/
theorem registerShiftResults : Obligations.RegisterShiftResults := by
  intro s rd rs1 rs2
  rw [← shiftAmount_toNat]
  refine ⟨fromWord_writesReg_of (i := .sll rd rs1 rs2) rfl rfl ?_, fromWord_writesReg_of (i := .srl rd rs1 rs2) rfl rfl ?_,
    fromWord_writesReg_of (i := .sra rd rs1 rs2) rfl rfl ?_⟩
  · exact shiftLeft_toNat _ _
  · exact shiftRightLogical_toNat _ _
  · exact shiftRightArith_toInt _ _

/-- Settles O30: both comparisons end in a write-back of a flag word, 1 or 0 as the comparison decides. -/
theorem compareResults : Obligations.CompareResults := by
  intro s rd rs1 rs2
  rw [← flagWord_decide, ← flagWord_decide]
  exact ⟨fromWord_writesReg (i := .slt rd rs1 rs2) rfl rfl, fromWord_writesReg (i := .sltu rd rs1 rs2) rfl rfl⟩

/-- Settles O31: the three instructions end in a write-back of the operation on whole words, which acts bit by bit. -/
theorem logicResults : Obligations.LogicResults := by
  intro s rd rs1 rs2
  refine ⟨fromWord_writesReg_of (i := .xor rd rs1 rs2) rfl rfl ?_, fromWord_writesReg_of (i := .or rd rs1 rs2) rfl rfl ?_,
    fromWord_writesReg_of (i := .and rd rs1 rs2) rfl rfl ?_⟩
  · exact fun k _ => BitVec.getLsbD_xor
  · exact fun k _ => BitVec.getLsbD_or
  · exact fun k _ => BitVec.getLsbD_and

end Sys2Proof.Machine
end

section
/-! PROOFS. The register-immediate instructions (41_register_immediate.md rules R150 to R160): the value that each leaves in `rd`,
and the words in the places of the shifts that are none (47_system_and_unsupported.md rule R238). -/

namespace Sys2Proof.Machine

/-! ## The sign-extended immediate, as a number and bit by bit (R12, R98) -/

theorem ofInt_toNat_emod (z : Int) : ((BitVec.ofInt 32 z).toNat : Int) = z % 2 ^ 32 := by
  rw [BitVec.toNat_ofInt]
  exact Int.toNat_of_nonneg (Int.emod_nonneg _ (by decide))

theorem sextImm_toInt {n : Nat} (hn : n ≤ 32) (imm : BitVec n) : (sextImm imm).toInt = imm.toInt :=
  BitVec.toInt_signExtend_of_le hn

/-- Read as unsigned, it is the signed immediate modulo 2^32 (R153). -/
theorem sextImm_toNat_emod {n : Nat} (imm : BitVec n) : ((sextImm imm).toNat : Int) = imm.toInt % 2 ^ 32 :=
  ofInt_toNat_emod imm.toInt

/-- A sum with the sign-extended immediate is the integer sum, reduced (R151). -/
theorem add_sextImm_toNat_emod {n : Nat} (hn : n ≤ 32) (a : Word) (imm : BitVec n) :
    ((a + sextImm imm).toNat : Int) = (a.toNat + imm.toInt) % 2 ^ 32 := by
  rw [add_sextImm hn, ofInt_toNat_emod]

/-- The immediate's top bit stands in every higher place. -/
theorem sextImm_getLsbD {n k : Nat} (imm : BitVec n) (hk : k < 32) :
    (sextImm imm).getLsbD k = imm.getLsbD (min k (n - 1)) := by
  rw [sextImm, BitVec.getLsbD_signExtend, decide_eq_true hk, Bool.true_and]
  split
  next hlow => rw [Nat.min_eq_left (by omega)]
  next hhigh => rw [Nat.min_eq_right (by omega), BitVec.msb_eq_getLsbD_last]

/-! ## The words in the places of the shifts that are none (R104, R160, R238) -/

theorem extClass_of_opImm {w : Word} (hop : opcodeOf w = 0b0010011#7) : extClass w = .unknown := by
  have hlow := lowBits_eq w
  rw [hop] at hlow
  simp [extClass, hlow, hop]

section
variable {w : Word} {f7 : BitVec 7}

theorem decode_leftShift_unused (hop : opcodeOf w = 0b0010011#7) (h7 : funct7Of w = f7) (h3 : funct3Of w = 0b001#3)
    (hunused : f7 ≠ 0b0000000#7) : decode w = .error (.illegal .unknown) :=
  decode_unknown (by simp [decodeWord, hop, decodeOpImm, h3, h7, hunused]) (extClass_of_opImm hop)

theorem decode_rightShift_unused (hop : opcodeOf w = 0b0010011#7) (h7 : funct7Of w = f7) (h3 : funct3Of w = 0b101#3)
    (hlogical : f7 ≠ 0b0000000#7) (harith : f7 ≠ 0b0100000#7) : decode w = .error (.illegal .unknown) :=
  decode_unknown (by simp [decodeWord, hop, decodeOpImm, h3, h7, hlogical, harith]) (extClass_of_opImm hop)

end

/-- A word that the decoder refuses, and the step that fetches it (R255). -/
theorem refused_and_raises {s : State} {w : Word} {c : Reject} (h : decode w = .error c) :
    decode w = .error c ∧
      (s.run = .running → fetch s = .ok w → step s = .next (faultedState s .illegalInstruction w)) :=
  ⟨h, fun hrun hfetch => step_of_decode_error hrun hfetch h⟩

/-! ## The statements -/

/-- Settles O32: the instruction ends in a write-back of the sum with the sign-extended immediate. -/
theorem addiResult : Obligations.AddiResult := by
  intro s rd rs1 imm
  exact fromWord_writesReg_of (i := .addi rd rs1 imm) rfl rfl (add_sextImm_toNat_emod (by decide) _ _)

/-- Settles O33: both comparisons end in a write-back of a flag word, and both compare with the sign-extended immediate. -/
theorem compareImmediateResults : Obligations.CompareImmediateResults := by
  intro s rd rs1 imm
  constructor
  · rw [← sextImm_toInt (by decide) imm, ← flagWord_decide]
    exact fromWord_writesReg (i := .slti rd rs1 imm) rfl rfl
  · simp only [← sextImm_toNat_emod, Int.ofNat_lt, ← flagWord_decide]
    exact fromWord_writesReg (i := .sltiu rd rs1 imm) rfl rfl

/-- Settles O34: the three instructions end in a write-back of the operation on whole words, which acts bit by bit on the source
and the sign-extended immediate. -/
theorem logicImmediateResults : Obligations.LogicImmediateResults := by
  intro s rd rs1 imm
  refine ⟨fromWord_writesReg_of (i := .xori rd rs1 imm) rfl rfl ?_, fromWord_writesReg_of (i := .ori rd rs1 imm) rfl rfl ?_,
    fromWord_writesReg_of (i := .andi rd rs1 imm) rfl rfl ?_⟩
  all_goals intro k hk; rw [← sextImm_getLsbD imm hk]
  · exact BitVec.getLsbD_xor
  · exact BitVec.getLsbD_or
  · exact BitVec.getLsbD_and

/-- Settles O35: the shifts end in a write-back of the value shifted by `shamt`; the other words have the opcode and funct3 of a
shift and the funct7 of none, so the decoder refuses them. -/
theorem shiftImmediateResults : Obligations.ShiftImmediateResults := by
  intro s rd rs1 shamt
  refine ⟨fromWord_writesReg_of (i := .slli rd rs1 shamt) rfl rfl ?_, fromWord_writesReg_of (i := .srli rd rs1 shamt) rfl rfl ?_,
    fromWord_writesReg_of (i := .srai rd rs1 shamt) rfl rfl ?_, ?_, ?_⟩
  · exact shiftLeft_toNat _ _
  · exact shiftRightLogical_toNat _ _
  · exact shiftRightArith_toInt _ _
  · rintro f7 _ rfl hunused
    exact refused_and_raises
      (decode_leftShift_unused (opcodeOf_encodeR ..) (funct7Of_encodeR ..) (funct3Of_encodeR ..) hunused)
  · rintro f7 _ rfl hlogical harith
    exact refused_and_raises
      (decode_rightShift_unused (opcodeOf_encodeR ..) (funct7Of_encodeR ..) (funct3Of_encodeR ..) hlogical harith)

end Sys2Proof.Machine
end

section
/-! PROOFS. The loads (42_loads.md rules R170 to R175): what each of the three widths leaves when it completes, device and plain
bytes alike, and the two faults of a load. -/

namespace Sys2Proof.Machine

/-! ## The value read, as the bytes a data read sees (R51, R53) -/

/-- In bounds and off the block edges, a read answers the little-endian word of the bytes that a data read sees, whichever
device or plain memory holds them. -/
theorem memRead_eq_guestBytes {s : State} (hp : s.params.Ok) {a : Word} {w : Width}
    (hin : InArena s.params a.toNat w.bytes) (hwhole : ¬Straddles s.params a.toNat w.bytes) :
    memRead s a w = .ok (wordOf (readBytes (guestByte s) a.toNat w.bytes)) := by
  obtain ⟨u, hread, hbytes⟩ := memRead_spec hp hin hwhole
  rw [hread]
  refine congrArg Except.ok (word_ext fun k hk => ?_)
  rw [hbytes k hk, byteOf_wordOf_readBytes _ _ hk]

/-! ## The extensions (R12) -/

theorem sext8_toInt (v : Word) : (sext8 v).toInt = (v.setWidth 8).toInt := BitVec.toInt_signExtend_of_le (by decide)

theorem sext16_toInt (v : Word) : (sext16 v).toInt = (v.setWidth 16).toInt := BitVec.toInt_signExtend_of_le (by decide)

/-- The low byte of a word read from one byte is that byte. -/
theorem setWidth_wordOf_one (b : Byte) : (wordOf [b]).setWidth 8 = b := by
  rw [wordOf_one, BitVec.setWidth_setWidth_of_le _ (by decide), BitVec.setWidth_eq]

/-- The low halfword of a word read from two bytes is those bytes, the lower address less significant. -/
theorem setWidth_wordOf_two (b0 b1 : Byte) : (wordOf [b0, b1]).setWidth 16 = b1 ++ b0 := by
  rw [wordOf_two, BitVec.setWidth_setWidth_of_le _ (by decide), BitVec.setWidth_eq]

theorem sext8_wordOf_one_toInt (b : Byte) : (sext8 (wordOf [b])).toInt = b.toInt := by
  rw [sext8_toInt, setWidth_wordOf_one]

theorem zext8_wordOf_one_toNat (b : Byte) : (zext8 (wordOf [b])).toNat = b.toNat := by
  rw [zext8, setWidth_wordOf_one, BitVec.toNat_setWidth_of_le (by decide)]

theorem sext16_wordOf_two_toInt (b0 b1 : Byte) : (sext16 (wordOf [b0, b1])).toInt = (b1 ++ b0).toInt := by
  rw [sext16_toInt, setWidth_wordOf_two]

theorem zext16_wordOf_two_toNat (b0 b1 : Byte) : (zext16 (wordOf [b0, b1])).toNat = (b1 ++ b0).toNat := by
  rw [zext16, setWidth_wordOf_two, BitVec.toNat_setWidth_of_le (by decide)]

/-! ## A load, completing or faulting, at any width and extension (R170) -/

section
variable {s : State} {rs1 : RegIdx} {imm : BitVec 12} {w : Width}

/-- A load that completes writes the extended bytes to `rd`, advances, and does nothing else. -/
theorem load_writesReg (hp : s.params.Ok) (hin : InArena s.params (effectiveAddress s rs1 imm).toNat w.bytes)
    (hwhole : ¬Straddles s.params (effectiveAddress s rs1 imm).toNat w.bytes) (ext : Word → Word) (rd : RegIdx) :
    ∃ t, load w ext rd rs1 imm s = .next t ∧ WritesRegAndAdvances s t rd
      (ext (wordOf (readBytes (guestByte s) (effectiveAddress s rs1 imm).toNat w.bytes))) :=
  ⟨_, load_ok (memRead_eq_guestBytes hp hin hwhole), writesRegAndAdvances_writeBack s rd _⟩

/-- The same, with what the value written is known to meet. -/
theorem load_writesReg_of (hp : s.params.Ok) (hin : InArena s.params (effectiveAddress s rs1 imm).toNat w.bytes)
    (hwhole : ¬Straddles s.params (effectiveAddress s rs1 imm).toNat w.bytes) {ext : Word → Word} {rd : RegIdx}
    {P : Word → Prop} (hv : P (ext (wordOf (readBytes (guestByte s) (effectiveAddress s rs1 imm).toNat w.bytes)))) :
    ∃ t v, load w ext rd rs1 imm s = .next t ∧ WritesRegAndAdvances s t rd v ∧ P v := by
  obtain ⟨t, hload, hwrites⟩ := load_writesReg hp hin hwhole ext rd
  exact ⟨t, _, hload, hwrites, hv⟩

theorem load_outOfBounds (h : ¬InArena s.params (effectiveAddress s rs1 imm).toNat w.bytes) (ext : Word → Word)
    (rd : RegIdx) :
    load w ext rd rs1 imm s = .next (faultedState s .outOfBounds (effectiveAddress s rs1 imm)) :=
  load_error (memRead_outOfBounds h)

theorem load_straddles (hin : InArena s.params (effectiveAddress s rs1 imm).toNat w.bytes)
    (h : Straddles s.params (effectiveAddress s rs1 imm).toNat w.bytes) (ext : Word → Word) (rd : RegIdx) :
    load w ext rd rs1 imm s = .next (faultedState s .misalignedDeviceAccess (effectiveAddress s rs1 imm)) :=
  load_error (memRead_straddles hin h)

end

/-- LB and LBU are one meaning up to the extension (R171, R174). -/
theorem exec_byteLoad_of_mem {rd rs1 : RegIdx} {imm : BitVec 12} {i : Instr}
    (h : i ∈ [Instr.lb rd rs1 imm, .lbu rd rs1 imm]) :
    ∃ ext, ∀ s, exec i s = load .byte ext rd rs1 imm s := by
  simp only [List.mem_cons, List.not_mem_nil, or_false] at h
  obtain rfl | rfl := h
  · exact ⟨sext8, fun _ => rfl⟩
  · exact ⟨zext8, fun _ => rfl⟩

/-- LH and LHU are one meaning up to the extension (R172, R175). -/
theorem exec_halfLoad_of_mem {rd rs1 : RegIdx} {imm : BitVec 12} {i : Instr}
    (h : i ∈ [Instr.lh rd rs1 imm, .lhu rd rs1 imm]) :
    ∃ ext, ∀ s, exec i s = load .half ext rd rs1 imm s := by
  simp only [List.mem_cons, List.not_mem_nil, or_false] at h
  obtain rfl | rfl := h
  · exact ⟨sext16, fun _ => rfl⟩
  · exact ⟨zext16, fun _ => rfl⟩

/-! ## The statements -/

/-- Settles O38: a single byte never straddles, so the load completes with the byte that a data read sees, extended. -/
theorem byteLoadsComplete : Obligations.ByteLoadsComplete := by
  intro s rd rs1 imm hp hin
  have hwhole := not_straddles_byte s.params (effectiveAddress s rs1 imm).toNat
  exact ⟨load_writesReg_of (w := .byte) hp hin hwhole (sext8_wordOf_one_toInt _),
    load_writesReg_of (w := .byte) hp hin hwhole (zext8_wordOf_one_toNat _)⟩

/-- Settles O39: the load completes with the two bytes that a data read sees, extended. -/
theorem halfwordLoadsComplete : Obligations.HalfwordLoadsComplete := by
  intro s rd rs1 imm hp hin hwhole
  exact ⟨load_writesReg_of (w := .half) hp hin hwhole (sext16_wordOf_two_toInt _ _),
    load_writesReg_of (w := .half) hp hin hwhole (zext16_wordOf_two_toNat _ _)⟩

/-- Settles O40: the load completes with the four bytes that a data read sees, and they are the whole word. -/
theorem wordLoadCompletes : Obligations.WordLoadCompletes := by
  intro s rd rs1 imm hp hin hwhole
  rw [← wordOf_four]
  exact load_writesReg (w := .word) hp hin hwhole id rd

/-- Settles O41: the read raises out of bounds before it looks for a straddle, and the load takes what the read raises,
whatever its extension and `rd`. -/
theorem loadsFault : Obligations.LoadsFault := by
  intro s rd rs1 imm ea
  refine ⟨fun i hi hout => ?_, fun i hi => ?_, fun hout => load_outOfBounds (w := .word) hout id rd,
    fun hin hstraddles => load_straddles (w := .word) hin hstraddles id rd⟩
  · obtain ⟨ext, hexec⟩ := exec_byteLoad_of_mem hi
    exact (hexec s).trans (load_outOfBounds (w := .byte) hout ext rd)
  · obtain ⟨ext, hexec⟩ := exec_halfLoad_of_mem hi
    exact ⟨fun hout => (hexec s).trans (load_outOfBounds (w := .half) hout ext rd),
      fun hin hstraddles => (hexec s).trans (load_straddles (w := .half) hin hstraddles ext rd)⟩

end Sys2Proof.Machine
end

section
/-! PROOFS. The stores (43_stores.md rules R185 to R188): what each of the three widths leaves in plain memory, and the three
faults of a store. -/

namespace Sys2Proof.Machine

/-! ## A store that faults, at any width (R185) -/

section
variable {s : State} {rs1 : RegIdx} {imm : BitVec 12} {w : Width}

theorem store_outOfBounds (h : ¬InArena s.params (effectiveAddress s rs1 imm).toNat w.bytes) (rs2 : RegIdx) :
    store w rs1 rs2 imm s = .next (faultedState s .outOfBounds (effectiveAddress s rs1 imm)) :=
  store_error (memWrite_outOfBounds h _)

theorem store_straddles (hin : InArena s.params (effectiveAddress s rs1 imm).toNat w.bytes)
    (h : Straddles s.params (effectiveAddress s rs1 imm).toNat w.bytes) (rs2 : RegIdx) :
    store w rs1 rs2 imm s = .next (faultedState s .misalignedDeviceAccess (effectiveAddress s rs1 imm)) :=
  store_error (memWrite_straddles hin h _)

theorem store_sensor (hp : s.params.Ok)
    (h : WithinBlock s.params.ioMap.sensor (effectiveAddress s rs1 imm).toNat w.bytes) (rs2 : RegIdx) :
    store w rs1 rs2 imm s = .next (faultedState s .readOnlyViolation (effectiveAddress s rs1 imm)) :=
  store_error (memWrite_sensor hp h _)

end

/-! ## The statements -/

/-- Settles O42: the write lays its bytes into memory and leaves every other byte, and the store then advances the pc. -/
theorem storesToPlainMemoryComplete : Obligations.StoresToPlainMemoryComplete := by
  rintro s rs1 rs2 imm hm ⟨i, n⟩ he hin hout
  obtain ⟨w, rfl, hexec⟩ := exec_store_of_mem he
  refine ⟨_, (hexec s).trans (store_ok (memWrite_plain hin hout _)), fun k hk => read_writeBytes_bytesOf_add hm _ _ hk,
    fun a ha => (read_writeBytes_bytesOf hm _ _ _ a).trans (if_neg ha), ?_⟩
  exact ⟨rfl, rfl, rfl, fun _ => rfl, ⟨rfl, rfl, rfl⟩, rfl⟩

/-- Settles O46: the store takes what the write raises, which looks at the bounds first, then for a straddle, then at the kind
of the block. -/
theorem storesFault : Obligations.StoresFault := by
  rintro s rs1 rs2 imm hp ⟨i, n⟩ he ea
  obtain ⟨w, rfl, hexec⟩ := exec_store_of_mem he
  exact ⟨fun hout => (hexec s).trans (store_outOfBounds hout rs2),
    fun hin hstraddles => (hexec s).trans (store_straddles hin hstraddles rs2),
    fun hsensor => (hexec s).trans (store_sensor hp hsensor rs2)⟩

end Sys2Proof.Machine
end

section
/-! PROOFS. The six branches (44_branches.md rules R195 to R202): where a taken branch and one that is not taken leave the Hart,
and the fault of a taken branch whose target is invalid. -/

namespace Sys2Proof.Machine

/-! ## A branch, whatever its condition (R195, R202) -/

section
variable {s : State} {c : Word → Word → Bool} {rs1 rs2 : RegIdx} {off : BitVec 13}

theorem branch_validTarget (h : c (s.readReg rs1) (s.readReg rs2) = true)
    (hvalid : ValidTarget s.params (pcPlus s off.toInt)) :
    branch c rs1 rs2 off s = .next { s with pc := pcPlus s off.toInt } := by
  rw [← branchTarget_eq] at hvalid ⊢
  exact branch_taken h ((checkTarget_none_iff_valid s _).2 hvalid)

theorem branch_invalidTarget (h : c (s.readReg rs1) (s.readReg rs2) = true)
    (hinvalid : ¬ValidTarget s.params (pcPlus s off.toInt)) :
    branch c rs1 rs2 off s = .next (faultedState s .invalidBranchTarget (pcPlus s off.toInt)) := by
  rw [← branchTarget_eq] at hinvalid ⊢
  exact branch_rejected h (checkTarget_of_invalid hinvalid)

end

/-- The six branches on one pair of sources and one offset, each with the truth of its condition (R196 to R201). -/
abbrev branchesWithConditions (s : State) (rs1 rs2 : RegIdx) (off : BitVec 13) : List (Instr × Bool) :=
  [(.beq rs1 rs2 off, decide (s.readReg rs1 = s.readReg rs2)),
   (.bne rs1 rs2 off, decide (s.readReg rs1 ≠ s.readReg rs2)),
   (.blt rs1 rs2 off, decide ((s.readReg rs1).toInt < (s.readReg rs2).toInt)),
   (.bge rs1 rs2 off, decide ((s.readReg rs1).toInt ≥ (s.readReg rs2).toInt)),
   (.bltu rs1 rs2 off, decide ((s.readReg rs1).toNat < (s.readReg rs2).toNat)),
   (.bgeu rs1 rs2 off, decide ((s.readReg rs1).toNat ≥ (s.readReg rs2).toNat))]

/-- The six branches are one meaning up to the condition that they put to their sources (R196 to R201). -/
theorem exec_branch_of_mem {s : State} {rs1 rs2 : RegIdx} {off : BitVec 13} {i : Instr} {holds : Bool}
    (h : (i, holds) ∈ branchesWithConditions s rs1 rs2 off) :
    ∃ c, exec i s = branch c rs1 rs2 off s ∧ c (s.readReg rs1) (s.readReg rs2) = holds := by
  simp only [List.mem_cons, List.not_mem_nil, or_false, Prod.mk.injEq] at h
  obtain ⟨rfl, rfl⟩ | ⟨rfl, rfl⟩ | ⟨rfl, rfl⟩ | ⟨rfl, rfl⟩ | ⟨rfl, rfl⟩ | ⟨rfl, rfl⟩ := h
  · exact ⟨fun a b => a == b, rfl, beq_eq_decide _ _⟩
  · exact ⟨fun a b => a != b, rfl, bne_word _ _⟩
  · exact ⟨lessSigned, rfl, rfl⟩
  · exact ⟨fun a b => !lessSigned a b, rfl, not_lessSigned _ _⟩
  · exact ⟨lessUnsigned, rfl, rfl⟩
  · exact ⟨fun a b => !lessUnsigned a b, rfl, not_lessUnsigned _ _⟩

/-! ## The statements -/

/-- Settles O53: the target of a taken branch passes the check, and a branch that is not taken does not look at its target. -/
theorem branchesComplete : Obligations.BranchesComplete := by
  rintro s rs1 rs2 off ⟨i, holds⟩ he
  obtain ⟨c, hexec, hc⟩ := exec_branch_of_mem he
  exact ⟨fun htaken hvalid => hexec.trans (branch_validTarget (hc.trans htaken) hvalid),
    fun hpasses => hexec.trans (branch_not_taken (hc.trans hpasses))⟩

/-- Settles O54: the target of a taken branch fails the check, and the branch takes what the check raises. -/
theorem branchesFault : Obligations.BranchesFault := by
  intro s rs1 rs2 off hinvalid
  have hfaults : ∀ e ∈ branchesWithConditions s rs1 rs2 off, e.2 = true →
      exec e.1 s = .next (faultedState s .invalidBranchTarget (pcPlus s off.toInt)) := by
    rintro ⟨i, holds⟩ he htaken
    obtain ⟨c, hexec, hc⟩ := exec_branch_of_mem he
    exact hexec.trans (branch_invalidTarget (hc.trans htaken) hinvalid)
  simpa only [List.forall_mem_cons, List.not_mem_nil, false_implies, implies_true, and_true, decide_eq_true_eq] using hfaults

end Sys2Proof.Machine
end

section
/-! PROOFS. The jumps (45_jumps.md rules R210 to R212): where JAL and JALR leave the Hart when their target is valid, and the fault
of a target that is not. -/

namespace Sys2Proof.Machine

/-! ## A jump, whatever forms its target (R195, R212) -/

section
variable {s : State} {t : Word}

theorem jumpAndLink_validTarget (hvalid : ValidTarget s.params t) (rd : RegIdx) :
    ∃ u, jumpAndLink rd t s = .next u ∧ WritesReg s u rd (s.pc + 4) ∧ u.pc = t :=
  ⟨_, jumpAndLink_ok ((checkTarget_none_iff_valid s t).2 hvalid), writesReg_link s rd t, State.setPc_pc _ t⟩

theorem jumpAndLink_invalidTarget (hinvalid : ¬ValidTarget s.params t) (rd : RegIdx) :
    jumpAndLink rd t s = .next (faultedState s .invalidBranchTarget t) :=
  jumpAndLink_rejected (checkTarget_of_invalid hinvalid)

end

/-! ## The two jumps, with their targets as integers (R210, R211) -/

theorem exec_jal (s : State) (rd : RegIdx) (off : BitVec 21) :
    exec (.jal rd off) s = jumpAndLink rd (pcPlus s off.toInt) s :=
  congrArg (jumpAndLink rd · s) (jalTarget_eq s off)

theorem jalrTarget_toNat (s : State) (rs1 : RegIdx) (imm : BitVec 12) :
    ((jalrTarget s rs1 imm).toNat : Int) = ((s.readReg rs1).toNat + imm.toInt) % 2 ^ 32 / 2 * 2 := by
  rw [jalrTarget, toNat_and_even, Int.natCast_mul, Int.natCast_ediv, add_sextImm_toNat_emod (by decide)]
  rfl

theorem exec_jalr {s : State} {rs1 : RegIdx} {imm : BitVec 12} {target : Word}
    (htarget : (target.toNat : Int) = ((s.readReg rs1).toNat + imm.toInt) % 2 ^ 32 / 2 * 2) (rd : RegIdx) :
    exec (.jalr rd rs1 imm) s = jumpAndLink rd target s := by
  obtain rfl : jalrTarget s rs1 imm = target :=
    BitVec.eq_of_toNat_eq (Int.ofNat.inj ((jalrTarget_toNat s rs1 imm).trans htarget.symm))
  rfl

/-! ## The statements -/

/-- Settles O55: the target passes the check, so the jump writes the link and then the pc. -/
theorem jumpsComplete : Obligations.JumpsComplete := by
  intro s rd rs1 off imm target
  refine ⟨fun hvalid => ?_, fun htarget hvalid => ?_⟩
  · simpa only [exec_jal] using jumpAndLink_validTarget hvalid rd
  · simpa only [exec_jalr htarget] using jumpAndLink_validTarget hvalid rd

/-- Settles O56: the target fails the check, which comes before the link and the pc are written, and the jump takes what the
check raises. -/
theorem jumpsFault : Obligations.JumpsFault := by
  intro s rd rs1 off imm target
  exact ⟨fun hinvalid => (exec_jal s rd off).trans (jumpAndLink_invalidTarget hinvalid rd),
    fun htarget hinvalid => (exec_jalr htarget rd).trans (jumpAndLink_invalidTarget hinvalid rd)⟩

end Sys2Proof.Machine
end

section
/-! PROOFS. The upper-immediate instructions (46_upper_immediate.md rules R220 and R221): the value that each leaves in `rd`. -/

namespace Sys2Proof.Machine

/-- Twelve zeros below the immediate multiply it by 2^12 (R101). -/
theorem upperImm_toNat (imm20 : BitVec 20) : (upperImm imm20).toNat = imm20.toNat * 4096 := by
  rw [upperImm, BitVec.toNat_append, BitVec.toNat_ofNat, Nat.zero_mod, Nat.or_zero, Nat.shiftLeft_eq]

/-- Settles O36: both instructions end in a write-back, of the upper immediate and of its sum with the pc. -/
theorem upperImmediateResults : Obligations.UpperImmediateResults := by
  intro s rd imm20
  refine ⟨fromWord_writesReg_of (i := .lui rd imm20) rfl rfl ?_, fromWord_writesReg_of (i := .auipc rd imm20) rfl rfl ?_⟩
  · exact upperImm_toNat imm20
  · rw [BitVec.toNat_add, upperImm_toNat]

end Sys2Proof.Machine
end

section
/-! PROOFS. The words of the unsupported opcodes and of the M extension (47_system_and_unsupported.md rules R230 to R238): the
case table has no line for them, and the class under which the decoder refuses each; and the example words of the spec. -/

namespace Sys2Proof

/-! ## The opcodes (R104, R238) -/

/-- The nine opcodes that have a line in the case table (R104). -/
abbrev supportedOpcodes : List (BitVec 7) :=
  [0b0110111#7, 0b0010111#7, 0b1101111#7, 0b1100111#7, 0b1100011#7, 0b0000011#7, 0b0100011#7, 0b0010011#7, 0b0110011#7]

/-- The seven floating-point opcodes (R235). -/
abbrev floatOpcodes : List (BitVec 7) :=
  [0b0000111#7, 0b0100111#7, 0b1000011#7, 0b1000111#7, 0b1001011#7, 0b1001111#7, 0b1010011#7]

/-- The unsupported opcodes that are named with a class of their own, each with it: MISC-MEM, SYSTEM, AMO and floating point
(R230, R231, R234, R235). -/
abbrev classedOpcodes : List (BitVec 7 × ExtClass) :=
  [(0b0001111#7, .fence), (0b1110011#7, .zicsrSystem), (0b0101111#7, .a)] ++ floatOpcodes.map (·, .fd)

theorem supportedOpcodes_lowBits : ∀ op ∈ supportedOpcodes, op.extractLsb' 0 2 = 0b11#2 := by decide

theorem classedOpcodes_unsupported : ∀ e ∈ classedOpcodes, e.1 ∉ supportedOpcodes := by decide

/-! ## The case table has no line (R104, R237) -/

theorem decodeWord_unsupported {w : Word} (h : opcodeOf w ∉ supportedOpcodes) : decodeWord w = none := by
  unfold decodeWord
  split
  case h_10 => rfl
  all_goals exact absurd (by simp [*]) h

/-- The funct7 code of the M extension is none of the OP opcode's two (R232). -/
theorem decodeOp_m {w : Word} (h7 : funct7Of w = 0b0000001#7) : decodeOp w = none :=
  decodeOp_none (by simp [h7]) (by simp [h7])

/-- The upper seven bits of a word written with the middle eighteen as one field. -/
theorem funct7Of_append (f7 : BitVec 7) (mid : BitVec 18) (op : BitVec 7) : funct7Of (f7 ++ mid ++ op) = f7 := by
  apply BitVec.eq_of_getLsbD_eq
  intro i hi
  simp (disch := omega) only [funct7Of, getLsbD_field, getLsbD_append_high]
  congr 1
  omega

/-! ## The class of each word (R238) -/

section
variable {w : Word}

theorem extClass_of_classed {e : BitVec 7 × ExtClass} (he : e ∈ classedOpcodes) (hop : opcodeOf w = e.1) :
    extClass w = e.2 := by
  have hlow := lowBits_eq w
  rw [hop] at hlow
  simp only [List.map_cons, List.map_nil, List.cons_append, List.nil_append, List.mem_cons, List.not_mem_nil,
    or_false] at he
  obtain rfl | rfl | rfl | rfl | rfl | rfl | rfl | rfl | rfl | rfl := he <;> simp [extClass, hlow, hop]

/-- A word that is neither compressed nor of a supported opcode nor of a named family (R233, R237). -/
theorem extClass_of_unclassed (hlow : w.extractLsb' 0 2 = 0b11#2) (hunsupported : opcodeOf w ∉ supportedOpcodes)
    (hunclassed : opcodeOf w ∉ classedOpcodes.map Prod.fst) : extClass w = .unknown := by
  unfold extClass
  rw [if_neg (not_not.2 hlow)]
  split
  case h_1 => exact absurd (by simp [*]) hunsupported
  case h_12 => rfl
  all_goals exact absurd (by simp [*]) hunclassed

/-! ## What the decoder answers -/

/-- Every supported opcode ends in `11`, so a word that does not has no line (R236). -/
theorem decode_compressed (h : w.extractLsb' 0 2 ≠ 0b11#2) : decode w = .error (.illegal .c) := by
  have hnone : decodeWord w = none := decodeWord_unsupported fun hmem =>
    h ((lowBits_eq w).trans (supportedOpcodes_lowBits _ hmem))
  rw [decode_of_none hnone, extClass, if_pos h]

theorem decode_classed {op : BitVec 7} {k : ExtClass} (h : (op, k) ∈ classedOpcodes) (hop : opcodeOf w = op) :
    decode w = .error (.illegal k) := by
  have hnone : decodeWord w = none := decodeWord_unsupported (hop ▸ classedOpcodes_unsupported _ h)
  rw [decode_of_none hnone, extClass_of_classed h hop]

theorem decode_unclassed (hlow : w.extractLsb' 0 2 = 0b11#2) (hunsupported : opcodeOf w ∉ supportedOpcodes)
    (hunclassed : opcodeOf w ∉ classedOpcodes.map Prod.fst) : decode w = .error (.illegal .unknown) :=
  decode_unknown (decodeWord_unsupported hunsupported) (extClass_of_unclassed hlow hunsupported hunclassed)

/-- The same with the opcode given, so that the three conditions are closed facts about it. -/
theorem decode_unclassed_opcode {op : BitVec 7} (hop : opcodeOf w = op)
    (h : op.extractLsb' 0 2 = 0b11#2 ∧ op ∉ supportedOpcodes ∧ op ∉ classedOpcodes.map Prod.fst) :
    decode w = .error (.illegal .unknown) := by
  subst hop
  obtain ⟨hlow, hunsupported, hunclassed⟩ := h
  exact decode_unclassed ((lowBits_eq w).trans hlow) hunsupported hunclassed

theorem decode_m (hop : opcodeOf w = 0b0110011#7) (h7 : funct7Of w = 0b0000001#7) :
    decode w = .error (.illegal .m) := by
  have hnone : decodeWord w = none := by simp [decodeWord, hop, decodeOp_m h7]
  have hlow := lowBits_eq w
  rw [hop] at hlow
  have hclass : extClass w = .m := by simp [extClass, hlow, hop, h7]
  rw [decode_of_none hnone, hclass]

end

/-- Settles O7: no such word has a line in the case table, and its class is read off its low bits, its opcode or its funct7. -/
theorem unsupportedFamiliesAreRefusedByClass : Obligations.UnsupportedFamiliesAreRefusedByClass := by
  refine ⟨fun w => decode_compressed, fun hi => ?_, fun mid => ?_, fun w => decode_unclassed⟩
  · have hop : ∀ op, opcodeOf (hi ++ op) = op := opcodeOf_append hi
    have hfloat : ∀ op ∈ floatOpcodes, (op, ExtClass.fd) ∈ classedOpcodes := by decide
    exact ⟨decode_classed (by decide) (hop _), decode_classed (by decide) (hop _), decode_classed (by decide) (hop _),
      fun op hmem => decode_classed (hfloat op hmem) (hop op), decode_unclassed_opcode (hop _) (by decide),
      decode_unclassed_opcode (hop _) (by decide)⟩
  · exact decode_m (opcodeOf_append (0b0000001#7 ++ mid) _) (funct7Of_append _ mid _)

/-- Settles O6: each word is evaluated. -/
theorem exampleWordsDecode : Obligations.ExampleWordsDecode :=
  ⟨by decide, by decide, by decide, by decide, by decide, by decide, by decide⟩

end Sys2Proof
end

section
/-! PROOFS. The kinds of fault that an executing instruction raises (60_exceptions.md section 1, R250, R258): one lemma for each
memory primitive and each shape of the meanings, then every instruction against the table. -/

namespace Sys2Proof.Machine

/-! ## The kinds of the memory primitives (R53, R54) -/

/-- The kinds that only an access of more than one byte raises: the blocks are disjoint, so one byte straddles none (R9, R58). -/
def Width.straddleKinds : Width → List FaultKind
  | .byte => []
  | .half => [.misalignedDeviceAccess]
  | .word => [.misalignedDeviceAccess]

theorem Width.straddleKinds_of_place {p : Params} (hp : p.Ok) {a : Nat} {w : Width}
    (h : place p.ioMap a w.bytes = .straddle) : .misalignedDeviceAccess ∈ w.straddleKinds := by
  cases w with
  | byte => exact absurd h (place_byte_ne_straddle (params_disjoint hp) a)
  | half | word => exact List.mem_singleton_self _

theorem memRead_error_kind {s : State} (hp : s.params.Ok) {a : Word} {w : Width} {r : Raise}
    (h : memRead s a w = .error r) : r.kind ∈ .outOfBounds :: w.straddleKinds := by
  obtain ⟨rfl, -⟩ | ⟨rfl, -, hplace⟩ := memRead_error h
  · exact List.mem_cons_self
  · exact List.mem_cons_of_mem _ (Width.straddleKinds_of_place hp hplace)

theorem memWrite_error_kind {s : State} (hp : s.params.Ok) {a : Word} {w : Width} {v : Word} {r : Raise}
    (h : memWrite s a w v = .error r) : r.kind ∈ .outOfBounds :: .readOnlyViolation :: w.straddleKinds := by
  obtain ⟨rfl, -⟩ | ⟨rfl, -, hplace⟩ | ⟨rfl, -⟩ := memWrite_error h
  · exact List.mem_cons_self
  · exact List.mem_cons_of_mem _ (List.mem_cons_of_mem _ (Width.straddleKinds_of_place hp hplace))
  · exact List.mem_cons_of_mem _ List.mem_cons_self

/-! ## The shapes of the meanings -/

/-- An outcome that leaves the run state as it was, or is the fault entry of one of `kinds`. -/
inductive CompletesOrRaises (s : State) (kinds : List FaultKind) : Result → Prop where
  | completes (u : State) (h : u.run = s.run) : CompletesOrRaises s kinds (.next u)
  | raises (r : Raise) (h : r.kind ∈ kinds) : CompletesOrRaises s kinds (raise s r)

theorem writeBack_raises (s : State) (rd : RegIdx) (v : Word) : CompletesOrRaises s [] (writeBack s rd v) :=
  .completes _ rfl

theorem load_raises {s : State} (hp : s.params.Ok) (w : Width) (ext : Word → Word) (rd rs1 : RegIdx) (imm : BitVec 12) :
    CompletesOrRaises s (.outOfBounds :: w.straddleKinds) (load w ext rd rs1 imm s) := by
  cases h : memRead s (effectiveAddress s rs1 imm) w with
  | ok v => exact load_ok h ▸ .completes _ rfl
  | error r => exact load_error h ▸ .raises r (memRead_error_kind hp h)

theorem store_raises {s : State} (hp : s.params.Ok) (w : Width) (rs1 rs2 : RegIdx) (imm : BitVec 12) :
    CompletesOrRaises s (.outOfBounds :: .readOnlyViolation :: w.straddleKinds) (store w rs1 rs2 imm s) := by
  cases h : memWrite s (effectiveAddress s rs1 imm) w (s.readReg rs2) with
  | ok t =>
    obtain ⟨-, -, -, hrun, -⟩ := memWrite_frame h
    exact store_ok h ▸ .completes _ hrun
  | error r => exact store_error h ▸ .raises r (memWrite_error_kind hp h)

theorem checkTarget_some_kind {s : State} {t : Word} {r : Raise} (h : checkTarget s t = some r) :
    r.kind ∈ [FaultKind.invalidBranchTarget] := by
  rw [checkTarget_some h]
  exact List.mem_singleton_self _

theorem branch_raises (c : Word → Word → Bool) (rs1 rs2 : RegIdx) (off : BitVec 13) (s : State) :
    CompletesOrRaises s [.invalidBranchTarget] (branch c rs1 rs2 off s) := by
  cases h : c (s.readReg rs1) (s.readReg rs2) with
  | false => exact branch_not_taken h ▸ .completes _ rfl
  | true =>
    cases ht : checkTarget s (branchTarget s off) with
    | none => exact branch_taken h ht ▸ .completes _ rfl
    | some r => exact branch_rejected h ht ▸ .raises r (checkTarget_some_kind ht)

theorem jumpAndLink_raises (rd : RegIdx) (t : Word) (s : State) :
    CompletesOrRaises s [.invalidBranchTarget] (jumpAndLink rd t s) := by
  cases h : checkTarget s t with
  | none => exact jumpAndLink_ok h ▸ .completes _ rfl
  | some r => exact jumpAndLink_rejected h ▸ .raises r (checkTarget_some_kind h)

/-! ## One instruction -/

/-- Every instruction completes or raises a kind that the table of R250 gives it. -/
theorem exec_raises {s : State} (hp : s.params.Ok) (i : Instr) : CompletesOrRaises s (mayRaise i) (exec i s) := by
  cases i with
  | lb _ _ _ | lbu _ _ _ => exact load_raises hp .byte _ _ _ _
  | lh _ _ _ | lhu _ _ _ => exact load_raises hp .half _ _ _ _
  | lw _ _ _ => exact load_raises hp .word _ _ _ _
  | sb _ _ _ => exact store_raises hp .byte _ _ _
  | sh _ _ _ => exact store_raises hp .half _ _ _
  | sw _ _ _ => exact store_raises hp .word _ _ _
  | beq _ _ _ | bne _ _ _ | blt _ _ _ | bltu _ _ _ => exact branch_raises _ _ _ _ _
  | bge _ _ _ => exact branch_raises (fun a b => !lessSigned a b) _ _ _ _
  | bgeu _ _ _ => exact branch_raises (fun a b => !lessUnsigned a b) _ _ _ _
  | jal _ _ | jalr _ _ _ => exact jumpAndLink_raises _ _ _
  | _ => exact writeBack_raises _ _ _

/-- A `Running` Hart that ends `Faulted` took one of the kinds, with its own pc in the record (R258). -/
theorem CompletesOrRaises.fault_kind {s t : State} {kinds : List FaultKind} {o : Result}
    (h : CompletesOrRaises s kinds o) (ho : o = .next t) (hrun : s.run = .running) (hfaulted : t.run = .faulted) :
    ∃ kind ∈ kinds, ∃ info, t = faultedState s kind info := by
  cases h with
  | completes u hsame =>
    injection ho with hut
    simp [← hut, hsame, hrun] at hfaulted
  | raises r hr =>
    injection ho with hrt
    exact ⟨r.kind, hr, r.info, hrt.symm⟩

/-- Settles O14: an instruction completes or raises a kind of its line in the table, and to complete leaves the Hart
`Running`. -/
theorem instructionRaisesOnlyItsKinds : Obligations.InstructionRaisesOnlyItsKinds := by
  intro i s t hp hrun hexec hfaulted
  exact (exec_raises hp i).fault_kind hexec hrun hfaulted

end Sys2Proof.Machine
end

section
/-! PROOFS. Construction and the host's side (70_reset_and_hazards.md rules R290 to R299): the state after construction, budgets
that add up, and the clamped view of the actuators. -/

namespace Sys2Proof.Machine

/-! ## Budgets (R296, R297) -/

/-- A longer run goes on where a shorter one stopped. -/
theorem runSteps_add (m n : Nat) (s : State) : runSteps (m + n) s = runSteps n (runSteps m s) := by
  induction m generalizing s with
  | zero =>
    rw [Nat.zero_add]
    rfl
  | succ m ih =>
    cases hrun : s.run with
    | running =>
      obtain ⟨t, hstep⟩ := step_next_of_running hrun
      rw [Nat.succ_add, runSteps_succ hstep, runSteps_succ hstep, ih]
    | faulted => simp only [runSteps_of_faulted hrun]

/-- Settles O57: the budget is the depth of the recursion alone, and a run takes no step of a `Faulted` Hart. -/
theorem budgetsCompose : Obligations.BudgetsCompose := by
  refine ⟨runSteps_add, fun m n s hfaulted => ?_⟩
  rw [runSteps_add, runSteps_of_faulted hfaulted]

/-! ## Construction (R35, R290) -/

/-- An array of zeros reads 0 everywhere, past its end too. -/
theorem byteAt_replicate_zero (n k : Nat) : byteAt (List.replicate n 0#8) k = 0#8 := by
  rw [byteAt, List.getD_eq_getElem?_getD]
  exact List.getElem?_getD_replicate_default_eq (0#8) n k

/-- Settles O25: construction writes each field so. -/
theorem constructionGivesTheResetValues : Obligations.ConstructionGivesTheResetValues := by
  intro p image entry
  exact ⟨State.construct_readReg p image entry, rfl, rfl, rfl, fun _ => rfl, rfl, List.length_replicate,
    List.length_replicate, fun k => ⟨byteAt_replicate_zero _ k, byteAt_replicate_zero _ k⟩⟩

/-- Settles O24: the fixture T0, no image and entry address 0 meet the launch predicate. -/
theorem resetMeetsTheInvariant : Obligations.ResetMeetsTheInvariant :=
  constructionMeetsTheInvariant Config.fixtureT0 [] 0 (by decide)

/-! ## The view of the actuators (R299) -/

/-- The span of a range is a natural number, so its upper end is not below its lower end and the cases exclude each other. -/
theorem clampScalar_eq (r : ScalarRange) (x : Int) :
    clampScalar r x = if x < r.lo then r.lo else if r.lo + r.span < x then r.lo + r.span else x := by
  unfold clampScalar
  split
  · omega
  · split <;> omega

/-- Settles O60: each field of the view is the decoded one, clamped to its own range. -/
theorem actuatorViewClamps : Obligations.ActuatorViewClamps := by
  intro s e he
  simp only [List.mem_cons, List.not_mem_nil, or_false] at he
  obtain rfl | rfl | rfl := he <;> exact clampScalar_eq _ _

end Sys2Proof.Machine
end
